-- ==== Sys2Proof/Word.lean ====
section
/-! DEFINITION. The machine's word types: bytes, 16-bit words and the register numbers (spec 00_scope.md R9, R12). -/

namespace Sys2Proof

/-- An 8-bit unsigned value: a general register, a timer, a memory cell, the immediate kk (R9, R12). -/
abbrev Byte := BitVec 8

/-- A 16-bit unsigned value: an opcode, pc, I, a stack entry (R9). -/
abbrev Word := BitVec 16

/-- A 12-bit address operand nnn (R101). -/
abbrev Addr12 := BitVec 12

/-- A general register number, 0x0 to 0xF (R31). -/
abbrev Reg := Fin 16

/-- A sprite's row count n, 0 to 15 (R101). -/
abbrev RowCount := Fin 16

/-- VF, register 0xF, which several instructions also write as a flag (R32, R40). -/
abbrev VF : Reg := 15

end Sys2Proof
end

