-- ==== Sys2Proof/Config.lean ====
section
/-! DEFINITION. What is fixed for this machine (spec 00_scope.md R9), the parameters the source leaves open with
the spec's settings (R10), and the one free value, the byte a random draw gives (R17). -/

namespace Sys2Proof

/-- DRAW_EDGE (R10, R144): what a sprite's pixels beyond column 63 or row 31 do. -/
inductive DrawEdge where
  /-- They are not drawn and do not collide: the spec's setting (D9). -/
  | clip
  /-- They are drawn at the column mod 64 and the row mod 32: the alternative. -/
  | wrap
deriving DecidableEq, Repr

/-- VF_ALIAS (R10, R215): whether 8xy4 to 8xyE have a meaning when an operand is VF. -/
inductive VfAlias where
  /-- The rules as written, statement by statement: the spec's setting (D13). -/
  | exact
  /-- Such a form is refused by name: the alternative. -/
  | refuse
deriving DecidableEq, Repr

namespace Config

/-- MEM_SIZE: 4096 bytes, addresses 0x000 to 0xFFF (R9, R70). -/
abbrev memSize : Nat := 4096

/-- PROG_BASE: the reset pc and the load address (R9). -/
abbrev progBase : Nat := 0x200

/-- PROG_MAX: the largest program image, 4096 - 0x200 bytes (R9). -/
abbrev progMax : Nat := 3584

/-- FONT_BASE (R9). -/
abbrev fontBase : Nat := 0x050

/-- FONT_LEN: 16 glyphs of 5 bytes (R9). -/
abbrev fontLen : Nat := 80

/-- STACK_DEPTH (R9, R47). -/
abbrev stackDepth : Nat := 16

/-- DRAW_EDGE as this spec sets it (R10, D9; log 5, DESIGN CHOICE of the spec). -/
def drawEdge : DrawEdge := .clip

/-- STRICT_DECODE as this spec sets it (R10, D12; log 5, DESIGN CHOICE of the spec). -/
def strictDecode : Bool := true

/-- VF_ALIAS as this spec sets it (R10, D13; log 5, DESIGN CHOICE of the spec). -/
def vfAlias : VfAlias := .exact

/-- A value of the parameter FONT: any 80 bytes (R10, R362). -/
abbrev FontTable := Vector Byte fontLen

/-- The standard glyphs, five bytes per digit (R362). PRESUMED by the spec: general knowledge (D27, log 4). -/
def standardGlyphs : List Byte :=
  [0xF0, 0x90, 0x90, 0x90, 0xF0] ++ [0x20, 0x60, 0x20, 0x20, 0x70] ++
  [0xF0, 0x10, 0xF0, 0x80, 0xF0] ++ [0xF0, 0x10, 0xF0, 0x10, 0xF0] ++
  [0x90, 0x90, 0xF0, 0x10, 0x10] ++ [0xF0, 0x80, 0xF0, 0x10, 0xF0] ++
  [0xF0, 0x80, 0xF0, 0x90, 0xF0] ++ [0xF0, 0x10, 0x20, 0x40, 0x40] ++
  [0xF0, 0x90, 0xF0, 0x90, 0xF0] ++ [0xF0, 0x90, 0xF0, 0x10, 0xF0] ++
  [0xF0, 0x90, 0xF0, 0x90, 0x90] ++ [0xE0, 0x90, 0xE0, 0x90, 0xE0] ++
  [0xF0, 0x80, 0x80, 0x80, 0xF0] ++ [0xE0, 0x90, 0x90, 0x90, 0xE0] ++
  [0xF0, 0x80, 0xF0, 0x80, 0xF0] ++ [0xF0, 0x80, 0xF0, 0x80, 0x80]

/-- FONT as this spec sets it: the standard glyphs (R10, R362, D27; log 4). -/
def font : FontTable := ⟨standardGlyphs.toArray, rfl⟩

/-- RAND: the free value. `randByte k` is the byte the k-th random draw of the machine gives (R17, R49, D28).
It has no body, so a claim holds for every sequence of bytes (log 2). -/
opaque randByte : Nat → Byte

end Config

end Sys2Proof
end

