-- ==== Sys2Proof/Syntax.lean ====
section
/-! DEFINITION. The instruction set as syntax: one constructor per row of spec/opcode_table.json
(30_encoding.md R105), operands as R101 and R103 give them, assembler form as in R110. -/

namespace Sys2Proof

/-- The 34 base CHIP-8 instructions (R2, R105). -/
inductive Instr where
  /-- `00E0` CLS (R141). -/
  | cls
  /-- `00EE` RET (R161). -/
  | ret
  /-- `1nnn` JP nnn (R162). -/
  | jp (nnn : Addr12)
  /-- `2nnn` CALL nnn (R163). -/
  | call (nnn : Addr12)
  /-- `3xkk` SE Vx, kk (R181). -/
  | seImm (x : Reg) (kk : Byte)
  /-- `4xkk` SNE Vx, kk (R182). -/
  | sneImm (x : Reg) (kk : Byte)
  /-- `5xy0` SE Vx, Vy (R183). -/
  | seReg (x y : Reg)
  /-- `6xkk` LD Vx, kk (R202). -/
  | ldImm (x : Reg) (kk : Byte)
  /-- `7xkk` ADD Vx, kk (R203). -/
  | addImm (x : Reg) (kk : Byte)
  /-- `8xy0` LD Vx, Vy (R204). -/
  | ldReg (x y : Reg)
  /-- `8xy1` OR Vx, Vy (R205). -/
  | orReg (x y : Reg)
  /-- `8xy2` AND Vx, Vy (R206). -/
  | andReg (x y : Reg)
  /-- `8xy3` XOR Vx, Vy (R207). -/
  | xorReg (x y : Reg)
  /-- `8xy4` ADD Vx, Vy (R208). -/
  | addReg (x y : Reg)
  /-- `8xy5` SUB Vx, Vy (R209). -/
  | sub (x y : Reg)
  /-- `8xy6` SHR Vx, Vy (R211); y is a don't-care field, kept so that no bit of the word is lost (R107). -/
  | shr (x y : Reg)
  /-- `8xy7` SUBN Vx, Vy (R212). -/
  | subn (x y : Reg)
  /-- `8xyE` SHL Vx, Vy (R213); y is a don't-care field (R107). -/
  | shl (x y : Reg)
  /-- `9xy0` SNE Vx, Vy (R184). -/
  | sneReg (x y : Reg)
  /-- `Annn` LD I, nnn (R241). -/
  | ldI (nnn : Addr12)
  /-- `Bnnn` JP V0, nnn (R164). -/
  | jpV0 (nnn : Addr12)
  /-- `Cxkk` RND Vx, kk (R214). -/
  | rnd (x : Reg) (kk : Byte)
  /-- `Dxyn` DRW Vx, Vy, n (R142). -/
  | drw (x y : Reg) (n : RowCount)
  /-- `Ex9E` SKP Vx (R271). -/
  | skp (x : Reg)
  /-- `ExA1` SKNP Vx (R272). -/
  | sknp (x : Reg)
  /-- `Fx07` LD Vx, DT (R291). -/
  | ldVxDt (x : Reg)
  /-- `Fx0A` LD Vx, K (R273). -/
  | ldVxK (x : Reg)
  /-- `Fx15` LD DT, Vx (R292). -/
  | ldDtVx (x : Reg)
  /-- `Fx18` LD ST, Vx (R293). -/
  | ldStVx (x : Reg)
  /-- `Fx1E` ADD I, Vx (R242). -/
  | addI (x : Reg)
  /-- `Fx29` LD F, Vx (R243). -/
  | ldF (x : Reg)
  /-- `Fx33` LD B, Vx (R244). -/
  | ldB (x : Reg)
  /-- `Fx55` LD [I], Vx (R245). -/
  | ldMemVx (x : Reg)
  /-- `Fx65` LD Vx, [I] (R246). -/
  | ldVxMem (x : Reg)
deriving DecidableEq, Repr

/-- The row's name in the opcode map (R105), as spec/opcode_table.json spells it. -/
def Instr.mnemonic : Instr → String
  | .cls => "CLS"
  | .ret => "RET"
  | .jp _ => "JP"
  | .call _ => "CALL"
  | .seImm _ _ => "SE_IMM"
  | .sneImm _ _ => "SNE_IMM"
  | .seReg _ _ => "SE_REG"
  | .ldImm _ _ => "LD_IMM"
  | .addImm _ _ => "ADD_IMM"
  | .ldReg _ _ => "LD_REG"
  | .orReg _ _ => "OR"
  | .andReg _ _ => "AND"
  | .xorReg _ _ => "XOR"
  | .addReg _ _ => "ADD_REG"
  | .sub _ _ => "SUB"
  | .shr _ _ => "SHR"
  | .subn _ _ => "SUBN"
  | .shl _ _ => "SHL"
  | .sneReg _ _ => "SNE_REG"
  | .ldI _ => "LD_I"
  | .jpV0 _ => "JP_V0"
  | .rnd _ _ => "RND"
  | .drw _ _ _ => "DRW"
  | .skp _ => "SKP"
  | .sknp _ => "SKNP"
  | .ldVxDt _ => "LD_VX_DT"
  | .ldVxK _ => "LD_VX_K"
  | .ldDtVx _ => "LD_DT_VX"
  | .ldStVx _ => "LD_ST_VX"
  | .addI _ => "ADD_I"
  | .ldF _ => "LD_F"
  | .ldB _ => "LD_B"
  | .ldMemVx _ => "LD_MEM_VX"
  | .ldVxMem _ => "LD_VX_MEM"

end Sys2Proof
end

