-- ==== Sys2Proof/Decode.lean ====
section
/-! DEFINITION. The instruction decoder and, after it, the encoder (30_encoding.md R100 to R118): fields, byte order,
the two-level dispatch, the words of an instruction, and the decoder as the opcode table numbers its words. -/

namespace Sys2Proof

/-! ## Words and bytes (R74) -/

/-- `hi : lo`, the byte at the lower address in bits 15:8 (R74). -/
def joinBytes (hi lo : Byte) : Word := hi ++ lo

/-- Bits 15:8, the byte stored at the lower address (R74). -/
def highByte (w : Word) : Byte := w.extractLsb' 8 8

/-- Bits 7:0, the byte stored at the higher address (R74). -/
def lowByte (w : Word) : Byte := w.extractLsb' 0 8

/-! ## Fields (R101) -/

/-- group, op[15:12]. -/
def fieldGroup (w : Word) : BitVec 4 := w.extractLsb' 12 4

/-- x, op[11:8]. -/
def fieldX (w : Word) : Reg := (w.extractLsb' 8 4).toFin

/-- y, op[7:4]. -/
def fieldY (w : Word) : Reg := (w.extractLsb' 4 4).toFin

/-- n, op[3:0], as the sub-operation selector of groups 5, 8 and 9. -/
def fieldS (w : Word) : BitVec 4 := w.extractLsb' 0 4

/-- n, op[3:0], as the row count of DRW. -/
def fieldN (w : Word) : RowCount := (w.extractLsb' 0 4).toFin

/-- kk, op[7:0]. -/
def fieldKk (w : Word) : Byte := w.extractLsb' 0 8

/-- nnn, op[11:0]. -/
def fieldNnn (w : Word) : Addr12 := w.extractLsb' 0 12

/-! ## The decoder (R104, R115) -/

/-- Why bytes are no instruction. -/
inductive DecodeError where
  /-- Fewer than the two bytes every instruction has (R100). -/
  | truncated
  /-- The word matches no row of the opcode map: Unknown (R104, R106). -/
  | unknownOpcode (word : Word)
deriving DecidableEq, Repr

/-- Group 0x0, keyed by the whole word (R115). -/
def decodeGroup0 (w : Word) : Except DecodeError Instr :=
  if w = 0x00E0 then .ok .cls
  else if w = 0x00EE then .ok .ret
  else .error (.unknownOpcode w)

/-- Group 0x8, keyed by bits 3:0 (R115). -/
def decodeGroup8 (w : Word) : Except DecodeError Instr :=
  match fieldS w with
  | 0x0#4 => .ok (.ldReg (fieldX w) (fieldY w))
  | 0x1#4 => .ok (.orReg (fieldX w) (fieldY w))
  | 0x2#4 => .ok (.andReg (fieldX w) (fieldY w))
  | 0x3#4 => .ok (.xorReg (fieldX w) (fieldY w))
  | 0x4#4 => .ok (.addReg (fieldX w) (fieldY w))
  | 0x5#4 => .ok (.sub (fieldX w) (fieldY w))
  | 0x6#4 => .ok (.shr (fieldX w) (fieldY w))
  | 0x7#4 => .ok (.subn (fieldX w) (fieldY w))
  | 0xE#4 => .ok (.shl (fieldX w) (fieldY w))
  | _ => .error (.unknownOpcode w)

/-- Group 0xE, keyed by bits 7:0 (R115). -/
def decodeGroupE (w : Word) : Except DecodeError Instr :=
  match fieldKk w with
  | 0x9E#8 => .ok (.skp (fieldX w))
  | 0xA1#8 => .ok (.sknp (fieldX w))
  | _ => .error (.unknownOpcode w)

/-- Group 0xF, keyed by bits 7:0 (R115). -/
def decodeGroupF (w : Word) : Except DecodeError Instr :=
  match fieldKk w with
  | 0x07#8 => .ok (.ldVxDt (fieldX w))
  | 0x0A#8 => .ok (.ldVxK (fieldX w))
  | 0x15#8 => .ok (.ldDtVx (fieldX w))
  | 0x18#8 => .ok (.ldStVx (fieldX w))
  | 0x1E#8 => .ok (.addI (fieldX w))
  | 0x29#8 => .ok (.ldF (fieldX w))
  | 0x33#8 => .ok (.ldB (fieldX w))
  | 0x55#8 => .ok (.ldMemVx (fieldX w))
  | 0x65#8 => .ok (.ldVxMem (fieldX w))
  | _ => .error (.unknownOpcode w)

/-- Groups 0x5 and 0x9: under STRICT_DECODE bits 3:0 must be 0 (R104, R116). -/
def decodeXy0 (strict : Bool) (w : Word) (i : Reg → Reg → Instr) : Except DecodeError Instr :=
  if fieldS w = 0 ∨ strict = false then .ok (i (fieldX w) (fieldY w)) else .error (.unknownOpcode w)

/-- Decode of R104, with STRICT_DECODE as an argument (R10). -/
def decodeWordWith (strict : Bool) (w : Word) : Except DecodeError Instr :=
  match fieldGroup w with
  | 0x0#4 => decodeGroup0 w
  | 0x1#4 => .ok (.jp (fieldNnn w))
  | 0x2#4 => .ok (.call (fieldNnn w))
  | 0x3#4 => .ok (.seImm (fieldX w) (fieldKk w))
  | 0x4#4 => .ok (.sneImm (fieldX w) (fieldKk w))
  | 0x5#4 => decodeXy0 strict w .seReg
  | 0x6#4 => .ok (.ldImm (fieldX w) (fieldKk w))
  | 0x7#4 => .ok (.addImm (fieldX w) (fieldKk w))
  | 0x8#4 => decodeGroup8 w
  | 0x9#4 => decodeXy0 strict w .sneReg
  | 0xA#4 => .ok (.ldI (fieldNnn w))
  | 0xB#4 => .ok (.jpV0 (fieldNnn w))
  | 0xC#4 => .ok (.rnd (fieldX w) (fieldKk w))
  | 0xD#4 => .ok (.drw (fieldX w) (fieldY w) (fieldN w))
  | 0xE#4 => decodeGroupE w
  | _ => decodeGroupF w

/-- Decode under the spec's setting of STRICT_DECODE (R104). -/
def decodeWord (w : Word) : Except DecodeError Instr := decodeWordWith Config.strictDecode w

/-- The first instruction of some bytes, big-endian, and the bytes after it (R74, R100). -/
def decodeBytes : List Byte → Except DecodeError (Instr × List Byte)
  | hi :: lo :: rest =>
    match decodeWord (joinBytes hi lo) with
    | .ok i => .ok (i, rest)
    | .error e => .error e
  | _ => .error .truncated

/-! ## The encoder (R102, R105) -/

/-- A register number or count as a 4-bit field. -/
def nibble (r : Fin 16) : BitVec 4 := BitVec.ofFin r

/-- Format N: group, nnn (R102). -/
def wordN (group : BitVec 4) (nnn : Addr12) : Word := group ++ nnn

/-- Formats XK and XS: group, x, and the immediate or selector byte (R102). -/
def wordXK (group : BitVec 4) (x : Reg) (kk : Byte) : Word := group ++ nibble x ++ kk

/-- Formats XYS and XYN: group, x, y, and the selector or row count (R102). -/
def wordXY (group : BitVec 4) (x y : Reg) (s : BitVec 4) : Word := group ++ nibble x ++ nibble y ++ s

/-- The word of an instruction (R102, R105). -/
def encode : Instr → Word
  | .cls => 0x00E0
  | .ret => 0x00EE
  | .jp nnn => wordN 0x1 nnn
  | .call nnn => wordN 0x2 nnn
  | .seImm x kk => wordXK 0x3 x kk
  | .sneImm x kk => wordXK 0x4 x kk
  | .seReg x y => wordXY 0x5 x y 0x0
  | .ldImm x kk => wordXK 0x6 x kk
  | .addImm x kk => wordXK 0x7 x kk
  | .ldReg x y => wordXY 0x8 x y 0x0
  | .orReg x y => wordXY 0x8 x y 0x1
  | .andReg x y => wordXY 0x8 x y 0x2
  | .xorReg x y => wordXY 0x8 x y 0x3
  | .addReg x y => wordXY 0x8 x y 0x4
  | .sub x y => wordXY 0x8 x y 0x5
  | .shr x y => wordXY 0x8 x y 0x6
  | .subn x y => wordXY 0x8 x y 0x7
  | .shl x y => wordXY 0x8 x y 0xE
  | .sneReg x y => wordXY 0x9 x y 0x0
  | .ldI nnn => wordN 0xA nnn
  | .jpV0 nnn => wordN 0xB nnn
  | .rnd x kk => wordXK 0xC x kk
  | .drw x y n => wordXY 0xD x y (nibble n)
  | .skp x => wordXK 0xE x 0x9E
  | .sknp x => wordXK 0xE x 0xA1
  | .ldVxDt x => wordXK 0xF x 0x07
  | .ldVxK x => wordXK 0xF x 0x0A
  | .ldDtVx x => wordXK 0xF x 0x15
  | .ldStVx x => wordXK 0xF x 0x18
  | .addI x => wordXK 0xF x 0x1E
  | .ldF x => wordXK 0xF x 0x29
  | .ldB x => wordXK 0xF x 0x33
  | .ldMemVx x => wordXK 0xF x 0x55
  | .ldVxMem x => wordXK 0xF x 0x65

/-- The two bytes of an instruction as they lie in memory, lowest address first (R74, R100). -/
def encodeBytes (i : Instr) : List Byte := [highByte (encode i), lowByte (encode i)]

/-! ## The opcode table's numbering -/

/-- The 16-bit word whose bits are w as spec/opcode_table.json numbers them: bit 0 is the word's least
significant bit, and bits the table gives no number are 0. -/
def tableWord (nbits w : Nat) : Word := BitVec.ofNat 16 (w % 2 ^ min nbits 16)

/-- The instruction the decoder reads from the bytes of that word, laid out as memory holds them (R74). -/
def decodeTableWord (nbits w : Nat) : Option Instr :=
  match decodeBytes [highByte (tableWord nbits w), lowByte (tableWord nbits w)] with
  | .ok (i, _) => some i
  | .error _ => none

end Sys2Proof
end

