-- ==== Sys2Proof/Machine/State.lean ====
section
/-! DEFINITION. The machine's state as plain data (10_state.md R30 to R54), the transactions of the host interface and
their answers (60_exceptions.md R325), the reasons a step can stop, and the state right after Reset (R54, R360). -/

namespace Sys2Proof.Machine

/-- Memory: (address, byte) pairs, addresses strictly rising, none equal to the byte an unlisted address reads as
(`Memory.unlisted`). It stands for the 4096 cells of R70. -/
abbrev Memory := List Host.Cell

/-- The framebuffer, 32 rows of 64 pixels: bit px of row py is fb[py][px], 1 = on (R53). -/
abbrev Framebuffer := Vector (BitVec 64) 32

/-- The fault kinds of R310. -/
inductive FaultKind where
  /-- No fault: the core is running. -/
  | none
  /-- The fetched word decodes to Unknown (R104, R106). -/
  | unknownOpcode
  /-- CALL with sp = 16 (R163). -/
  | stackOverflow
  /-- RET with sp = 0 (R161). -/
  | stackUnderflow
  /-- A data address above 0xFFF (R71). -/
  | memoryRange
  /-- A fetch with pc >= 0xFFF (R73, R112). -/
  | fetchRange
  /-- A key number above 15 in Vx (R275). -/
  | keyRange
deriving DecidableEq, Repr

/-- The fault record (R44, R311). -/
structure FaultRecord where
  kind : FaultKind
  opcode : Word
  pc : Word
deriving DecidableEq, Repr

/-- The fault record after Reset: kind None, opcode 0, pc 0 (R44, R54). -/
def FaultRecord.clear : FaultRecord := { kind := .none, opcode := 0, pc := 0 }

/-- What a Cycle answers (R118). -/
inductive CycleResult where
  /-- One instruction executed. -/
  | ok
  /-- The Cycle faulted with this kind, and the core is now halted. -/
  | fault (kind : FaultKind)
  /-- The core was already halted and nothing happened. -/
  | halted
deriving DecidableEq, Repr

/-- What a LoadProgram answers (R365, R317). -/
inductive LoadResult where
  | ok
  | loadError
deriving DecidableEq, Repr

/-- The host's transactions (R325). -/
inductive Transaction where
  /-- Every state to its reset value (R360). -/
  | reset
  /-- Copy a program image to 0x200, if it fits (R365). -/
  | loadProgram (image : List Byte)
  /-- Execute one instruction (R112). -/
  | cycle
  /-- One timer step (R321). -/
  | tick
  /-- Replace the keypad latch; bit i is key i (R326, R331). -/
  | keyWrite (latch : BitVec 16)
  /-- Read the latch (R327). -/
  | keyRead
  /-- Read the framebuffer (R328). -/
  | fbRead
  /-- Read the fault record (R329). -/
  | statusRead
  /-- A port request with an unused command, which does nothing (R331). -/
  | unused
deriving DecidableEq, Repr

/-- What the last transaction gave back to the host (R325, last column but one). -/
inductive Response where
  /-- No transaction has been performed yet. -/
  | none
  /-- Done, nothing given back: Reset, KeyWrite, an unused command. -/
  | done
  | cycle (result : CycleResult)
  | load (result : LoadResult)
  /-- A Tick's sound notification bit (R321, R322). -/
  | tick (notify : Bool)
  /-- The 16 latch bits (R327). -/
  | keys (latch : BitVec 16)
  /-- The 2048 pixels (R328). -/
  | framebuffer (pixels : Framebuffer)
  /-- fault.kind, fault.opcode and fault.pc (R329). -/
  | status (record : FaultRecord)
deriving DecidableEq, Repr

/-- The state of the machine: the core's state as R30 lists it, then the model's own fields for the host's side. -/
structure State where
  /-- V0 to VF (R31). -/
  v : Vector Byte 16
  /-- The index register I (R46). -/
  i : Word
  /-- The program counter (R35). -/
  pc : Word
  /-- The 16 return addresses (R47); entries at sp and above are stale (R51). -/
  stack : Vector Word 16
  /-- The stack pointer, the number of entries in use, 0 to 16 (R41). -/
  sp : Fin 17
  /-- The delay timer DT (R42). -/
  dt : Byte
  /-- The sound timer ST (R43). -/
  st : Byte
  /-- The keypad latch, bit k = key k, 1 = pressed (R52). -/
  keys : BitVec 16
  /-- The framebuffer (R53). -/
  fb : Framebuffer
  /-- The 4096 bytes of memory (R70). -/
  mem : Memory
  /-- The random source (R49), as the number of draws made: the model's own form of a hidden state (log 2). -/
  rng : Nat
  /-- The fault record (R44). -/
  fault : FaultRecord
  /-- The transactions the host has queued, oldest first: the model's own field (R325, log 1). -/
  requests : List Transaction
  /-- What the last transaction gave back: the model's own field (R325, log 3). -/
  response : Response
deriving DecidableEq, Repr

/-- Reasons for a step to stop with a fault: there are none. Every fault the spec gives the core (R310) has a described
entry (R114, R314), so it is a NEXT state with the fault record written and the core halted, and nothing raises a member
of this type. Safe: no behaviour of the hardware is cut off by it (log 8). -/
inductive Fault
deriving DecidableEq, Repr

/-- Reasons for a step to refuse. -/
inductive Refusal where
  /-- Raised only by an arm of `exec` whose instruction has no meaning yet; no arm is left so. Safe. -/
  | notModelled (mnemonic : String)
  /-- Raised by 8xy4 to 8xyE on a VF operand under VF_ALIAS = refuse (R215), never under the spec's setting
  exact. Safe: the model stops where a core goes on. -/
  | vfOperandRefused (mnemonic : String)
deriving DecidableEq, Repr

/-- What a meaning, a transaction or a step answers. -/
abbrev Answer := Host.Outcome State Fault Refusal

/-- The machine right after Reset (R54, R360). `rng`, `requests` and `response` are the model's own fields, at values the
log names (logs 1, 2 and 3, DESIGN CHOICE). Memory lists nothing: an unlisted address reads as its reset byte. -/
def State.reset : State where
  v := Vector.replicate 16 0
  i := 0
  pc := 0x200
  stack := Vector.replicate 16 0
  sp := 0
  dt := 0
  st := 0
  keys := 0
  fb := Vector.replicate 32 0
  mem := []
  rng := 0
  fault := FaultRecord.clear
  requests := []
  response := .none

end Sys2Proof.Machine
end

