-- ==== Sys2Proof/Machine/Ops.lean ====
section
/-! DEFINITION. The named operations over memory, registers, the call stack, the framebuffer, the random source and the
fault record that the meanings are written with, taking a fault among them (30_encoding.md R114, 60_exceptions.md R314). -/

namespace Sys2Proof.Machine

/-! ## Memory (20_memory.md) -/

/-- The byte of address a after Reset under a value of FONT: the font at 0x050 to 0x09F and 0 elsewhere (R10, R54, R80,
R360). -/
def Memory.resetByte (font : Config.FontTable) (a : Nat) : Byte :=
  if h : Config.fontBase ≤ a ∧ a < Config.fontBase + Config.fontLen then
    font[a - Config.fontBase]'(Nat.sub_lt_left_of_lt_add h.1 h.2)
  else 0

/-- What an address no cell of the list names reads as: its byte after Reset under the spec's FONT (log 4). This fixes how
memory is written down, not what it can hold: under another FONT the list names the bytes that differ. -/
def Memory.unlisted (a : Nat) : Byte := Memory.resetByte Config.font a

/-- The byte the list gives address a. -/
def Memory.lookup : Memory → Nat → Byte
  | [], a => Memory.unlisted a
  | (b, w) :: rest, a => if b = a then w else Memory.lookup rest a

/-- A cell in canonical form: nothing where the byte is what an unlisted address reads as. -/
def Memory.cell (a : Nat) (byte : Byte) : Memory :=
  if byte = Memory.unlisted a then [] else [(a, byte)]

/-- The list with address a holding the byte, in canonical form. -/
def Memory.store : Memory → Nat → Byte → Memory
  | [], a, byte => Memory.cell a byte
  | (b, w) :: rest, a, byte =>
    if a < b then Memory.cell a byte ++ (b, w) :: rest
    else if a = b then Memory.cell a byte ++ rest
    else (b, w) :: Memory.store rest a byte

/-- The list is canonical from address lo up: addresses rising and below 4096, no cell an unlisted address would read
the same as. -/
def Memory.wfFrom (lo : Nat) : Memory → Bool
  | [] => true
  | (a, byte) :: rest =>
    decide (lo ≤ a) && decide (a < Config.memSize) && decide (byte ≠ Memory.unlisted a) && Memory.wfFrom (a + 1) rest

/-- Memory is in its one canonical form. -/
def Memory.wf (m : Memory) : Bool := Memory.wfFrom 0 m

/-- MemRead(a, 1) (R14): the byte at an address 0x000 to 0xFFF; none where the read raises MemoryRange (R71). -/
def Memory.read (m : Memory) (a : Nat) : Option Byte :=
  if a < Config.memSize then some (Memory.lookup m a) else none

/-- MemWrite(a, 1, byte) (R14): none where the write raises MemoryRange (R71). -/
def Memory.write (m : Memory) (a : Nat) (byte : Byte) : Option Memory :=
  if a < Config.memSize then some (Memory.store m a byte) else none

/-- The count bytes from address a upwards, one access each (R77); none if any of them raises. -/
def Memory.readBytes (m : Memory) (a : Nat) : Nat → Option (List Byte)
  | 0 => some []
  | count + 1 =>
    match Memory.read m a, Memory.readBytes m (a + 1) count with
    | some byte, some rest => some (byte :: rest)
    | _, _ => none

/-- The bytes stored from address a upwards, one access each (R77). None if any of them raises, and then no byte is
stored: every check precedes every write (R15, R240). -/
def Memory.writeBytes (m : Memory) (a : Nat) : List Byte → Option Memory
  | [] => some m
  | byte :: rest =>
    match Memory.write m a byte with
    | some m' => Memory.writeBytes m' (a + 1) rest
    | none => none

/-- Memory after Reset under a value of FONT: mem[0x050 + i] <- FONT[i], every other byte 0 (R360). -/
def Memory.ofFont (font : Config.FontTable) : Memory :=
  (Memory.writeBytes [] Config.fontBase font.toList).getD []

namespace State

/-! ## Registers and the program counter (10_state.md) -/

/-- V[r] (R13, R31). -/
def getV (s : State) (r : Reg) : Byte := s.v[r]

/-- V[r] <- byte (R13, R31). -/
def setV (s : State) (r : Reg) (byte : Byte) : State := { s with v := s.v.set r.val byte r.isLt }

/-- Stack entry j (R13, R47). -/
def stackAt (s : State) (j : Fin 16) : Word := s.stack[j]

/-- pc <- target (R16). -/
def setPc (s : State) (target : Word) : State := { s with pc := target }

/-- I <- value (R46). -/
def setI (s : State) (value : Word) : State := { s with i := value }

/-- pc <- pc + 2: the fetch advance, and a skip (R36, R180). -/
def advance (s : State) : State := s.setPc (s.pc + 2)

/-- A skip instruction: pc <- pc + 2 when the condition holds (R180). -/
def skipIf (s : State) (condition : Bool) : State := if condition then s.advance else s

/-- V0, V1, ... from register r upwards get the bytes, in order (R246); bytes past VF have no register. -/
def setVs (s : State) (r : Nat) : List Byte → State
  | [] => s
  | byte :: rest => if h : r < 16 then (s.setV ⟨r, h⟩ byte).setVs (r + 1) rest else s

/-- A random draw: one fresh byte from the environment (R17, R49). -/
def drawRandom (s : State) : Byte × State := (Config.randByte s.rng, { s with rng := s.rng + 1 })

/-! ## The call stack (R47, R161, R163) -/

/-- stack[sp] <- word; sp <- sp + 1; none where sp = 16. -/
def push (s : State) (word : Word) : Option State :=
  if h : s.sp.val < 16 then
    some { s with stack := s.stack.set s.sp.val word h, sp := ⟨s.sp.val + 1, Nat.succ_lt_succ h⟩ }
  else none

/-- sp <- sp - 1 and then stack[sp]; none where sp = 0. The popped entry stays in its place (R51). -/
def pop (s : State) : Option (Word × State) :=
  if h : 0 < s.sp.val then
    have below : s.sp.val - 1 < 16 := by have := s.sp.isLt; omega
    some (s.stack[s.sp.val - 1], { s with sp := ⟨s.sp.val - 1, Nat.lt_of_lt_of_le below (by decide)⟩ })
  else none

/-! ## Taking a fault (R114, R314) and leaving one (R315) -/

/-- Taking a fault, for every kind: fault <- (kind, opcode, A) and nothing else (R114, R314). The core is halted from
then on (R113). -/
def takeFault (s : State) (kind : FaultKind) (opcode address : Word) : State :=
  { s with fault := { kind := kind, opcode := opcode, pc := address } }

/-- `raise` of R15 in an instruction's execution, where pc = A + 2 (R36): the record's opcode is the instruction's word
and its address A = pc - 2 (R114; log 7). -/
def raise (s : State) (kind : FaultKind) (i : Instr) : Answer :=
  .next (s.takeFault kind (encode i) (s.pc - 2))

/-- The core is halted: the fault record holds a kind other than None (R44). -/
def isHalted (s : State) : Bool := decide (s.fault.kind ≠ .none)

/-- The machine right after Reset under a value of FONT, an argument of Reset (R10, R360, R362). With the spec's FONT it
is `State.reset`. -/
def resetWith (font : Config.FontTable) : State := { State.reset with mem := Memory.ofFont font }

/-- Reset (R360) under a value of FONT, the only way out of a fault (R315): every state at its reset value. The random
source keeps no value a program could have seen, so its draws go on fresh (log 2), and the host's own queue stays. -/
def resetAll (font : Config.FontTable) (s : State) : State :=
  { State.resetWith font with rng := s.rng, requests := s.requests }

/-! ## Fetch (R73, R74, R112) -/

/-- The opcode at pc: mem[pc] : mem[pc + 1]; none where the fetch raises FetchRange, that is for pc >= 0xFFF (R73). -/
def fetch (s : State) : Option Word :=
  match s.mem.read s.pc.toNat, s.mem.read (s.pc.toNat + 1) with
  | some hi, some lo => some (joinBytes hi lo)
  | _, _ => none

end State

/-! ## The framebuffer and the collision detector (40_display.md) -/

/-- fb[py][px] for a column 0 to 63 and a row 0 to 31; off elsewhere. -/
def Framebuffer.pixel (fb : Framebuffer) (px py : Nat) : Bool :=
  if h : py < 32 then (fb[py]).getLsbD px else false

/-- fb[py][px] <- fb[py][px] XOR 1, for a column 0 to 63 and a row 0 to 31. -/
def Framebuffer.toggle (fb : Framebuffer) (px py : Nat) : Framebuffer :=
  if h : py < 32 then fb.set py (fb[py] ^^^ (1#64 <<< px)) h else fb

/-- Every pixel off (R141). -/
def Framebuffer.clear : Framebuffer := Vector.replicate 32 0

/-- Bit py * 64 + px of the host's view (R328). -/
def Framebuffer.hostBit (fb : Framebuffer) (k : Nat) : Bool := fb.pixel (k % 64) (k / 64)

/-- A framebuffer under a draw, and whether a set sprite bit has met a pixel that was on (R142). -/
structure Canvas where
  fb : Framebuffer
  collided : Bool
deriving DecidableEq, Repr

/-- A set sprite bit at column px and row py, before the edge rule: DRAW_EDGE = wrap reduces the place, clip drops one
beyond column 63 or row 31 (R142, R144). -/
def Canvas.drawPixel (edge : DrawEdge) (px py : Nat) (c : Canvas) : Canvas :=
  match edge with
  | .clip =>
    if px ≤ 63 ∧ py ≤ 31 then { fb := c.fb.toggle px py, collided := c.collided || c.fb.pixel px py } else c
  | .wrap =>
    { fb := c.fb.toggle (px % 64) (py % 32), collided := c.collided || c.fb.pixel (px % 64) (py % 32) }

/-- Columns c, c + 1, ... up to 7 of one sprite row: bit 7 - c is the row's column c, bit 7 the leftmost (R142). The first
argument is how many columns are left to draw. -/
def Canvas.drawColumns (edge : DrawEdge) (xs py : Nat) (byte : Byte) : Nat → Canvas → Canvas
  | 0, c => c
  | left + 1, c =>
    Canvas.drawColumns edge xs py byte left
      (if byte.getLsbD left then c.drawPixel edge (xs + (7 - left)) py else c)

/-- One sprite row at row py, its eight columns from xs on, leftmost first (R142). -/
def Canvas.drawRow (edge : DrawEdge) (xs py : Nat) (byte : Byte) (c : Canvas) : Canvas :=
  Canvas.drawColumns edge xs py byte 8 c

/-- The sprite's rows from row ys down, first row first (R142). -/
def Canvas.drawRows (edge : DrawEdge) (xs ys : Nat) : List Byte → Canvas → Canvas
  | [], c => c
  | byte :: rest, c => Canvas.drawRows edge xs (ys + 1) rest (c.drawRow edge xs ys byte)

/-- The sprite drawn on a framebuffer, its collision detector cleared first (R142, R145). -/
def drawSprite (edge : DrawEdge) (xs ys : Nat) (rows : List Byte) (fb : Framebuffer) : Canvas :=
  Canvas.drawRows edge xs ys rows { fb := fb, collided := false }

end Sys2Proof.Machine
end

