-- ==== Sys2Proof/Machine/Operands.lean ====
section
/-! DEFINITION. Operand forms (30_encoding.md R103): address operands, the addresses formed from I, register ranges, font
glyphs, decimal digits, sprite coordinates and key numbers. -/

namespace Sys2Proof.Machine

/-- zext16(nnn) (R12, R103). -/
def zext16 (nnn : Addr12) : Word := nnn.setWidth 16

/-- The target of JP V0: nnn + V0, not masked (R164). -/
def indexedTarget (nnn : Addr12) (v0 : Byte) : Word := nnn.setWidth 16 + v0.setWidth 16

/-- The sixteen register numbers in order. -/
def allRegs : List Reg := [0, 1, 2, 3, 4, 5, 6, 7, 8, 9, 10, 11, 12, 13, 14, 15]

/-- The contents of V0 to Vx, V0 first (R245). -/
def State.regsUpTo (s : State) (x : Reg) : List Byte := (allRegs.take (x.val + 1)).map s.getV

/-- The address I + offset as an exact number, never truncated (R72). -/
def State.indexAddr (s : State) (offset : Nat) : Nat := s.i.toNat + offset

/-- The address of the font glyph for a digit: 0x050 + 5 * Vx, Vx not reduced (R243). -/
def glyphAddr (digit : Byte) : Word := BitVec.ofNat 16 (Config.fontBase + 5 * digit.toNat)

/-- The three decimal digits of a byte, hundreds first (R244). -/
def bcdDigits (byte : Byte) : List Byte :=
  [BitVec.ofNat 8 (byte.toNat / 100), BitVec.ofNat 8 (byte.toNat / 10 % 10), BitVec.ofNat 8 (byte.toNat % 10)]

/-- A sprite's start column, Vx mod 64 (R142). -/
def startColumn (vx : Byte) : Nat := vx.toNat % 64

/-- A sprite's start row, Vy mod 32 (R142). -/
def startRow (vy : Byte) : Nat := vy.toNat % 32

/-- Whether the key with the number in Vx is pressed; none for a number above 15, which no key has (R275). -/
def State.keyPressed (s : State) (number : Byte) : Option Bool :=
  if number.toNat ≤ 15 then some (s.keys.getLsbD number.toNat) else none

/-- The lowest pressed key number, if any key is pressed (R273). -/
def State.lowestKey (s : State) : Option Reg := allRegs.find? (fun k => s.keys.getLsbD k.val)

end Sys2Proof.Machine
end

