-- ==== Sys2Proof/Machine/Flags.lean ====
section
/-! DEFINITION. What is written to VF as a flag (10_state.md R40; 43_alu.md R200), and the VF_ALIAS parameter
(43_alu.md R210, R215). -/

namespace Sys2Proof.Machine

/-- A flag as the byte written to VF: 1 or 0 (R40). -/
def flagByte (b : Bool) : Byte := if b then 1 else 0

/-- The carry of a + b: 1 if the sum exceeds 255 (R208). -/
def carryFlag (a b : Byte) : Byte := flagByte (decide (a.toNat + b.toNat > 255))

/-- The flag of a - b: 1 if a > b, strictly (R209, R212). -/
def noBorrowFlag (a b : Byte) : Byte := flagByte (decide (a.toNat > b.toNat))

/-- The bit a right shift moves out: a AND 1 (R211). -/
def shiftOutLow (a : Byte) : Byte := a &&& 1

/-- The bit a left shift moves out: a >> 7 (R213). -/
def shiftOutHigh (a : Byte) : Byte := a >>> 7

/-- The collision flag of a draw (R142, R145). -/
def collisionFlag (c : Canvas) : Byte := flagByte c.collided

/-- VF_ALIAS (R215): under refuse, a form with a VF operand is refused by name; under exact, the spec's setting, every
form has its meaning (R210). -/
def vfGate (setting : VfAlias) (mnemonic : String) (usesVf : Bool) (meaning : Answer) : Answer :=
  match setting, usesVf with
  | .refuse, true => .refused (.vfOperandRefused mnemonic)
  | _, _ => meaning

/-- x or y is F (R210, R215). -/
def usesVf (x y : Reg) : Bool := x == VF || y == VF

end Sys2Proof.Machine
end

