-- ==== Sys2Proof/Machine/Alu.lean ====
section
/-! DEFINITION. Meanings of the ALU instructions (43_alu.md): loads, ADD, OR, AND, XOR, SUB, SUBN, the shifts, RND. The
statements of a rule run in the order written, each on the registers as the one before left them (00_scope.md R16). -/

namespace Sys2Proof.Machine

/-- LD Vx, kk (R202). -/
def execLdImm (x : Reg) (kk : Byte) (s : State) : Answer := .next (s.setV x kk)

/-- ADD Vx, kk: modulo 256, no flag (R203). -/
def execAddImm (x : Reg) (kk : Byte) (s : State) : Answer := .next (s.setV x (s.getV x + kk))

/-- LD Vx, Vy (R204). -/
def execLdReg (x y : Reg) (s : State) : Answer := .next (s.setV x (s.getV y))

/-- OR Vx, Vy, no flag (R205). -/
def execOrReg (x y : Reg) (s : State) : Answer := .next (s.setV x (s.getV x ||| s.getV y))

/-- AND Vx, Vy, no flag (R206). -/
def execAndReg (x y : Reg) (s : State) : Answer := .next (s.setV x (s.getV x &&& s.getV y))

/-- XOR Vx, Vy, no flag (R207). -/
def execXorReg (x y : Reg) (s : State) : Answer := .next (s.setV x (s.getV x ^^^ s.getV y))

/-- ADD Vx, Vy: the sum and the carry of the old values, Vx written before VF (R208). -/
def execAddReg (x y : Reg) (s : State) : Answer :=
  vfGate Config.vfAlias "ADD_REG" (usesVf x y)
    (.next ((s.setV x (s.getV x + s.getV y)).setV VF (carryFlag (s.getV x) (s.getV y))))

/-- SUB Vx, Vy: VF first, then Vx - Vy on the registers as the flag write left them (R209, R210). -/
def execSub (x y : Reg) (s : State) : Answer :=
  let flagged := s.setV VF (noBorrowFlag (s.getV x) (s.getV y))
  vfGate Config.vfAlias "SUB" (usesVf x y) (.next (flagged.setV x (flagged.getV x - flagged.getV y)))

/-- SHR Vx: VF first, then Vx >> 1 on the register as the flag write left it; Vy is never read (R211, R210). -/
def execShr (x _y : Reg) (s : State) : Answer :=
  let flagged := s.setV VF (shiftOutLow (s.getV x))
  vfGate Config.vfAlias "SHR" (x == VF) (.next (flagged.setV x (flagged.getV x >>> 1)))

/-- SUBN Vx, Vy: VF first, then Vy - Vx on the registers as the flag write left them (R212, R210). -/
def execSubn (x y : Reg) (s : State) : Answer :=
  let flagged := s.setV VF (noBorrowFlag (s.getV y) (s.getV x))
  vfGate Config.vfAlias "SUBN" (usesVf x y) (.next (flagged.setV x (flagged.getV y - flagged.getV x)))

/-- SHL Vx: VF first, then Vx << 1 on the register as the flag write left it; Vy is never read (R213, R210). -/
def execShl (x _y : Reg) (s : State) : Answer :=
  let flagged := s.setV VF (shiftOutHigh (s.getV x))
  vfGate Config.vfAlias "SHL" (x == VF) (.next (flagged.setV x (flagged.getV x <<< 1)))

/-- RND Vx, kk: one fresh random byte ANDed with kk (R214). -/
def execRnd (x : Reg) (kk : Byte) (s : State) : Answer :=
  let (r, s') := s.drawRandom
  .next (s'.setV x (r &&& kk))

end Sys2Proof.Machine
end

