-- ==== Sys2Proof/Machine/ControlFlow.lean ====
section
/-! DEFINITION. Meanings of the control-flow instructions (41_control_flow.md): RET, JP, CALL, JP V0. -/

namespace Sys2Proof.Machine

/-- RET: pop the top return address into pc; StackUnderflow with sp = 0 (R161). -/
def execRet (s : State) : Answer :=
  match s.pop with
  | none => s.raise .stackUnderflow .ret
  | some (target, s') => .next (s'.setPc target)

/-- JP: pc <- nnn (R162). -/
def execJp (nnn : Addr12) (s : State) : Answer := .next (s.setPc (zext16 nnn))

/-- CALL: push pc, which is A + 2, and set pc to nnn; StackOverflow with sp = 16 (R163). -/
def execCall (nnn : Addr12) (s : State) : Answer :=
  match s.push s.pc with
  | none => s.raise .stackOverflow (.call nnn)
  | some s' => .next (s'.setPc (zext16 nnn))

/-- JP V0: pc <- nnn + V0, not masked (R164). -/
def execJpV0 (nnn : Addr12) (s : State) : Answer := .next (s.setPc (indexedTarget nnn (s.getV 0)))

end Sys2Proof.Machine
end

