-- ==== Sys2Proof/Machine/Display.lean ====
section
/-! DEFINITION. Meanings of the display instructions (40_display.md): CLS, DRW. -/

namespace Sys2Proof.Machine

/-- CLS: every pixel off (R141). -/
def execCls (s : State) : Answer := .next { s with fb := Framebuffer.clear }

/-- DRW: XOR the n sprite bytes at I onto the screen at (Vx mod 64, Vy mod 32), VF the collision flag; MemoryRange before
any write if a sprite byte lies beyond memory (R142 to R145). The coordinates are read before VF is written. -/
def execDrw (x y : Reg) (n : RowCount) (s : State) : Answer :=
  match s.mem.readBytes (s.indexAddr 0) n.val with
  | none => s.raise .memoryRange (.drw x y n)
  | some rows =>
    let drawn := drawSprite Config.drawEdge (startColumn (s.getV x)) (startRow (s.getV y)) rows s.fb
    .next ({ s with fb := drawn.fb }.setV VF (collisionFlag drawn))

end Sys2Proof.Machine
end

