-- ==== Sys2Proof/Machine/IndexMemory.lean ====
section
/-! DEFINITION. Meanings of the index register and memory instructions (44_index_memory.md): LD I, ADD I, LD F, LD B,
LD [I], LD Vx, [I]. None of the memory instructions changes I (R240). -/

namespace Sys2Proof.Machine

/-- LD I, nnn (R241). -/
def execLdI (nnn : Addr12) (s : State) : Answer := .next (s.setI (zext16 nnn))

/-- ADD I, Vx: modulo 65536, no flag (R242). -/
def execAddI (x : Reg) (s : State) : Answer := .next (s.setI (s.i + (s.getV x).setWidth 16))

/-- LD F, Vx: I at the glyph of digit Vx (R243). -/
def execLdF (x : Reg) (s : State) : Answer := .next (s.setI (glyphAddr (s.getV x)))

/-- LD B, Vx: the decimal digits of Vx at I, I + 1, I + 2; MemoryRange, nothing written, if one lies beyond memory
(R244). -/
def execLdB (x : Reg) (s : State) : Answer :=
  match s.mem.writeBytes (s.indexAddr 0) (bcdDigits (s.getV x)) with
  | none => s.raise .memoryRange (.ldB x)
  | some m => .next { s with mem := m }

/-- LD [I], Vx: V0 to Vx from I upwards; MemoryRange, nothing written, if I + x lies beyond memory (R245). -/
def execLdMemVx (x : Reg) (s : State) : Answer :=
  match s.mem.writeBytes (s.indexAddr 0) (s.regsUpTo x) with
  | none => s.raise .memoryRange (.ldMemVx x)
  | some m => .next { s with mem := m }

/-- LD Vx, [I]: V0 to Vx from memory from I upwards; MemoryRange, no register written, if I + x lies beyond memory
(R246). -/
def execLdVxMem (x : Reg) (s : State) : Answer :=
  match s.mem.readBytes (s.indexAddr 0) (x.val + 1) with
  | none => s.raise .memoryRange (.ldVxMem x)
  | some bytes => .next (s.setVs 0 bytes)

end Sys2Proof.Machine
end

