-- ==== Sys2Proof/Machine/Keypad.lean ====
section
/-! DEFINITION. Meanings of the keypad instructions (45_keypad.md): SKP, SKNP, LD Vx, K. They only read the latch (R270,
R276). -/

namespace Sys2Proof.Machine

/-- SKP Vx: skip if the key numbered Vx is pressed; KeyRange for a number above 15 (R271, R275). -/
def execSkp (x : Reg) (s : State) : Answer :=
  match s.keyPressed (s.getV x) with
  | none => s.raise .keyRange (.skp x)
  | some pressed => .next (s.skipIf pressed)

/-- SKNP Vx: skip if the key numbered Vx is not pressed; KeyRange for a number above 15 (R272, R275). -/
def execSknp (x : Reg) (s : State) : Answer :=
  match s.keyPressed (s.getV x) with
  | none => s.raise .keyRange (.sknp x)
  | some pressed => .next (s.skipIf (!pressed))

/-- LD Vx, K: the lowest pressed key's number in Vx, or, with no key pressed, pc back to this instruction (R273). -/
def execLdVxK (x : Reg) (s : State) : Answer :=
  match s.lowestKey with
  | some k => .next (s.setV x (BitVec.ofNat 8 k.val))
  | none => .next (s.setPc (s.pc - 2))

end Sys2Proof.Machine
end

