-- ==== Sys2Proof/Machine/Skips.lean ====
section
/-! DEFINITION. Meanings of the conditional skips (42_skips.md): SE and SNE with an immediate and with a register. -/

namespace Sys2Proof.Machine

/-- SE Vx, kk: skip if Vx = kk (R181). -/
def execSeImm (x : Reg) (kk : Byte) (s : State) : Answer := .next (s.skipIf (s.getV x == kk))

/-- SNE Vx, kk: skip if Vx differs from kk (R182). -/
def execSneImm (x : Reg) (kk : Byte) (s : State) : Answer := .next (s.skipIf (s.getV x != kk))

/-- SE Vx, Vy: skip if Vx = Vy (R183). -/
def execSeReg (x y : Reg) (s : State) : Answer := .next (s.skipIf (s.getV x == s.getV y))

/-- SNE Vx, Vy: skip if Vx differs from Vy (R184). -/
def execSneReg (x y : Reg) (s : State) : Answer := .next (s.skipIf (s.getV x != s.getV y))

end Sys2Proof.Machine
end

