-- ==== Sys2Proof/Machine/Timers.lean ====
section
/-! DEFINITION. Meanings of the timer instructions (46_timers.md): LD Vx, DT, LD DT, Vx, LD ST, Vx. -/

namespace Sys2Proof.Machine

/-- LD Vx, DT (R291). -/
def execLdVxDt (x : Reg) (s : State) : Answer := .next (s.setV x s.dt)

/-- LD DT, Vx (R292). -/
def execLdDtVx (x : Reg) (s : State) : Answer := .next { s with dt := s.getV x }

/-- LD ST, Vx: no notification, whatever the values (R293). -/
def execLdStVx (x : Reg) (s : State) : Answer := .next { s with st := s.getV x }

end Sys2Proof.Machine
end

