-- ==== Sys2Proof/Machine/Cycle.lean ====
section
/-! DEFINITION. The Cycle transaction: fetch, advance, decode, execute one instruction (30_encoding.md R112 to R118). -/

namespace Sys2Proof.Machine

/-- The state with what the transaction gives back to the host (R325). -/
def State.respond (s : State) (r : Response) : State := { s with response := r }

/-- What a running core's Cycle answers, read off the fault record it leaves (R118). -/
def State.cycleResult (s : State) : CycleResult :=
  match s.fault.kind with
  | .none => .ok
  | kind => .fault kind

/-- The end of a Cycle of a running core: its result is reported (R118). -/
def finishCycle : Answer → Answer
  | .next s => .next (s.respond (.cycle s.cycleResult))
  | .fault f => .fault f
  | .refused r => .refused r

/-- The Cycle of a running core (R112): FetchRange before anything changes; else pc advances by 2 and the word is decoded
and executed, an Unknown word raising UnknownOpcode (R106, R114). -/
def runCycle (s : State) : Answer :=
  match s.fetch with
  | none => .next (s.takeFault .fetchRange 0 s.pc)
  | some op =>
    match decodeWord op with
    | .error _ => .next (s.advance.takeFault .unknownOpcode op s.pc)
    | .ok i => exec i s.advance

/-- The Cycle transaction (R112); a halted core's changes nothing and answers Halted (R113). -/
def cycle (s : State) : Answer :=
  if s.isHalted then .next (s.respond (.cycle .halted)) else finishCycle (runCycle s)

end Sys2Proof.Machine
end

