-- ==== Sys2Proof/Machine/Transactions.lean ====
section
/-! DEFINITION. The host's transactions (60_exceptions.md R325): Reset, LoadProgram, Tick, KeyWrite and the reads, and the
dispatch over them. Each runs wholly before the next (R330). -/

namespace Sys2Proof.Machine

/-- Reset (R360, R361) under a value of FONT (R10). -/
def doReset (font : Config.FontTable) (s : State) : State := (s.resetAll font).respond .done

/-- LoadProgram (R365): the image at 0x200 upwards if it has at most 3584 bytes, else a load error that writes nothing
(R366). It writes nothing but the image's bytes (R367). -/
def loadProgram (image : List Byte) (s : State) : State :=
  if image.length ≤ Config.progMax then
    { s with mem := (s.mem.writeBytes Config.progBase image).getD s.mem }.respond (.load .ok)
  else s.respond (.load .loadError)

/-- One step of a timer, which stops at 0 (R320, R321). -/
def countDown (timer : Byte) : Byte := if timer = 0 then 0 else timer - 1

/-- Tick (R321): both timers count down; the sound notification is 1 exactly when the sound timer was 1 (R322). It runs
the same whether the core is running or halted (R316, R323). -/
def tick (s : State) : State :=
  { s with dt := countDown s.dt, st := countDown s.st }.respond (.tick (s.st == 1))

/-- KeyWrite: the whole latch at once (R326). -/
def keyWrite (latch : BitVec 16) (s : State) : State := { s with keys := latch }.respond .done

/-- KeyRead: the 16 latch bits, nothing changed (R327). -/
def keyRead (s : State) : State := s.respond (.keys s.keys)

/-- FbRead: the 2048 pixels, nothing changed (R328). -/
def fbRead (s : State) : State := s.respond (.framebuffer s.fb)

/-- StatusRead: the fault record, nothing changed (R329). -/
def statusRead (s : State) : State := s.respond (.status s.fault)

/-- One transaction (R325). -/
def perform (t : Transaction) (s : State) : Answer :=
  match t with
  | .reset => .next (doReset Config.font s)
  | .loadProgram image => .next (loadProgram image s)
  | .cycle => cycle s
  | .tick => .next (tick s)
  | .keyWrite latch => .next (keyWrite latch s)
  | .keyRead => .next (keyRead s)
  | .fbRead => .next (fbRead s)
  | .statusRead => .next (statusRead s)
  | .unused => .next (s.respond .done)

/-- The next transaction (R325, R330): the oldest the host has queued, or, with none queued, a Cycle (log 1). -/
def nextTransaction (s : State) : Answer :=
  match s.requests with
  | [] => perform .cycle s
  | t :: rest => perform t { s with requests := rest }

/-- The sound notification output: 1 with a Tick that found ST = 1, else not asserted (R322, R54). -/
def State.soundNotify (s : State) : Bool :=
  match s.response with
  | .tick notify => notify
  | _ => false

end Sys2Proof.Machine
end

