-- ==== Sys2Proof/Machine/Step.lean ====
section
/-! DEFINITION. The step of the machine: one host transaction (60_exceptions.md R325, R330), a Cycle where the host has
queued none; and a state in which the next step fetches a given word. -/

namespace Sys2Proof.Machine

/-- One step: the next transaction (R325). -/
def step : State → Host.Outcome State Fault Refusal := nextTransaction

/-- s with the word of the opcode table stored where the next fetch reads it, big-endian (R74). All that the very next
step needs to run it is set (log 9): no transaction is queued before the Cycle, the core is not halted (R113), and a pc
the fetch would refuse (R73) is moved to 0x200. -/
def State.withFetchWord (s : State) (nbits w : Nat) : State :=
  let pc : Word := if s.pc.toNat + 1 < Config.memSize then s.pc else 0x200
  { s with
    pc := pc
    fault := FaultRecord.clear
    requests := []
    mem := (s.mem.store pc.toNat (highByte (tableWord nbits w))).store (pc.toNat + 1) (lowByte (tableWord nbits w)) }

end Sys2Proof.Machine
end

