-- ==== Sys2Proof/Machine/Ports.lean ====
section
/-! DEFINITION. The port-level realisation of the host interface (60_exceptions.md R331), transaction by transaction: the
command codes, the result codes and the output ports. The clock, LATENCY and LOAD_PORT are left out (log 6); what the
port table leaves open and this file settles is log 10. -/

namespace Sys2Proof.Machine

/-- The code of a fault kind (R310). -/
def FaultKind.code : FaultKind → BitVec 3
  | .none => 0
  | .unknownOpcode => 1
  | .stackOverflow => 2
  | .stackUnderflow => 3
  | .memoryRange => 4
  | .fetchRange => 5
  | .keyRange => 6

/-- The input ports as one request presents them (R331). -/
structure PortIn where
  rst : Bool
  req : Bool
  cmd : BitVec 3
  keyIn : BitVec 16
  /-- load_len, the image's length in bytes. -/
  loadLen : BitVec 16
  /-- The load_len bytes that come over load_data for the request, whatever the protocol LOAD_PORT (log 6). -/
  loadData : Vector Byte loadLen.toNat
deriving DecidableEq, Repr

/-- The transaction a request starts, if any: rst performs Reset, req the transaction cmd selects (R331). DESIGN CHOICE
(log 10): where rst and req are 1 in the same clock, on which the port table is silent, Reset alone is performed and the
request is dropped. -/
def PortIn.transaction (p : PortIn) : Option Transaction :=
  if p.rst then some .reset
  else if p.req then
    match p.cmd with
    | 0#3 => some .cycle
    | 1#3 => some .tick
    | 2#3 => some (.loadProgram p.loadData.toList)
    | 3#3 => some (.keyWrite p.keyIn)
    | 4#3 => some .reset
    | _ => some .unused
  else none

/-- The state with the request queued behind those already there: one transaction at a time (R330). DESIGN CHOICE (log
10): a rst while transactions are queued waits for them like a request. -/
def PortIn.submit (p : PortIn) (s : State) : State :=
  { s with requests := s.requests ++ p.transaction.toList }

/-- The response comes from a transaction that has completed, Reset by rst among them (R331; log 10). -/
def Response.completed (r : Response) : Bool := decide (r ≠ .none)

/-- The result port: Cycle 0 Ok, 1 Fault, 2 Halted; LoadProgram 0 Ok, 3 LoadError; else 0 (R331), which is read to
include a clock in which no transaction completes (DEDUCED, log 10). -/
def Response.code : Response → BitVec 2
  | .cycle .ok => 0
  | .cycle (.fault _) => 1
  | .cycle .halted => 2
  | .load .ok => 0
  | .load .loadError => 3
  | _ => 0

/-- The output ports (R331). -/
structure PortOut where
  done : Bool
  result : BitVec 2
  soundNotify : Bool
  faultKind : BitVec 3
  faultOpcode : Word
  faultPc : Word
  keyOut : BitVec 16
  fbData : Bool
deriving DecidableEq, Repr

/-- The output ports in the clock in which the last transaction completes, with fb_addr on the framebuffer's address port:
done is 1, and result and sound_notify are that transaction's (R331). -/
def State.portOut (s : State) (fbAddr : BitVec 11) : PortOut where
  done := s.response.completed
  result := s.response.code
  soundNotify := s.soundNotify
  faultKind := s.fault.kind.code
  faultOpcode := s.fault.opcode
  faultPc := s.fault.pc
  keyOut := s.keys
  fbData := s.fb.hostBit fbAddr.toNat

/-- The output ports in a clock between transactions: done is raised for one clock only, so it and sound_notify are 0
again, and the continuous outputs stay (R331). -/
def State.portIdle (s : State) (fbAddr : BitVec 11) : PortOut := (s.respond .none).portOut fbAddr

end Sys2Proof.Machine
end

