-- ==== Sys2Proof/WellFormed.lean ====
section
/-! DEFINITION. What is well-formed: an opcode word (it matches a row of the opcode map, 30_encoding.md R105, R106)
and a program image (it fits, 70_reset_and_hazards.md R365). An `Instr` needs no check of its own: each operand's type
is exactly its field (R101), and every value of every field is legal (R106, R107). -/

namespace Sys2Proof

/-- One row of the opcode map (R105): the fixed bits and the value they must hold. -/
structure OpcodeRow where
  name : String
  mask : Word
  bits : Word
deriving DecidableEq, Repr

/-- The word has the row's fixed bits (R105). -/
def OpcodeRow.fits (r : OpcodeRow) (w : Word) : Bool := w &&& r.mask == r.bits

/-- The mask of rows 7 and 19, 5xy0 and 9xy0: bits 3:0 are fixed only under STRICT_DECODE (R105, R116). -/
def xy0Mask (strict : Bool) : Word := if strict then 0xF00F else 0xF000

/-- Rows 1 to 9 of the opcode map (R105). -/
def opcodeRows1 (strict : Bool) : List OpcodeRow :=
  [⟨"CLS", 0xFFFF, 0x00E0⟩, ⟨"RET", 0xFFFF, 0x00EE⟩, ⟨"JP", 0xF000, 0x1000⟩, ⟨"CALL", 0xF000, 0x2000⟩,
   ⟨"SE_IMM", 0xF000, 0x3000⟩, ⟨"SNE_IMM", 0xF000, 0x4000⟩, ⟨"SE_REG", xy0Mask strict, 0x5000⟩,
   ⟨"LD_IMM", 0xF000, 0x6000⟩, ⟨"ADD_IMM", 0xF000, 0x7000⟩]

/-- Rows 10 to 18 of the opcode map (R105). -/
def opcodeRows2 : List OpcodeRow :=
  [⟨"LD_REG", 0xF00F, 0x8000⟩, ⟨"OR", 0xF00F, 0x8001⟩, ⟨"AND", 0xF00F, 0x8002⟩, ⟨"XOR", 0xF00F, 0x8003⟩,
   ⟨"ADD_REG", 0xF00F, 0x8004⟩, ⟨"SUB", 0xF00F, 0x8005⟩, ⟨"SHR", 0xF00F, 0x8006⟩, ⟨"SUBN", 0xF00F, 0x8007⟩,
   ⟨"SHL", 0xF00F, 0x800E⟩]

/-- Rows 19 to 25 of the opcode map (R105). -/
def opcodeRows3 (strict : Bool) : List OpcodeRow :=
  [⟨"SNE_REG", xy0Mask strict, 0x9000⟩, ⟨"LD_I", 0xF000, 0xA000⟩, ⟨"JP_V0", 0xF000, 0xB000⟩,
   ⟨"RND", 0xF000, 0xC000⟩, ⟨"DRW", 0xF000, 0xD000⟩, ⟨"SKP", 0xF0FF, 0xE09E⟩, ⟨"SKNP", 0xF0FF, 0xE0A1⟩]

/-- Rows 26 to 34 of the opcode map (R105). -/
def opcodeRows4 : List OpcodeRow :=
  [⟨"LD_VX_DT", 0xF0FF, 0xF007⟩, ⟨"LD_VX_K", 0xF0FF, 0xF00A⟩, ⟨"LD_DT_VX", 0xF0FF, 0xF015⟩,
   ⟨"LD_ST_VX", 0xF0FF, 0xF018⟩, ⟨"ADD_I", 0xF0FF, 0xF01E⟩, ⟨"LD_F", 0xF0FF, 0xF029⟩,
   ⟨"LD_B", 0xF0FF, 0xF033⟩, ⟨"LD_MEM_VX", 0xF0FF, 0xF055⟩, ⟨"LD_VX_MEM", 0xF0FF, 0xF065⟩]

/-- The complete opcode map (R105). -/
def opcodeTable (strict : Bool) : List OpcodeRow :=
  opcodeRows1 strict ++ opcodeRows2 ++ opcodeRows3 strict ++ opcodeRows4

/-- The word is one of the 34 instructions; every other word is illegal (R106). -/
def wordWellFormed (strict : Bool) (w : Word) : Bool := (opcodeTable strict).any (·.fits w)

/-- The program image fits the program space (R365): at most 3584 bytes. -/
def imageWellFormed (image : List Byte) : Bool := decide (image.length ≤ Config.progMax)

end Sys2Proof
end

