-- ==== Sys2Proof/Safety.lean ====
section
/-! DEFINITION. The terms claims use: which part of the state an instruction may write (10_state.md R34, R37, R45), frames,
running, halted and finished states (70_reset_and_hazards.md R375), the machine's invariant, and the call stack as a list. -/

namespace Sys2Proof.Machine

/-! ## Frames -/

/-- The parts of the state besides the general registers and pc. -/
inductive Part where
  | index
  | stack
  | delayTimer
  | soundTimer
  | keypad
  | screen
  | memory
  | random
  | fault
  | host
deriving DecidableEq, Repr

/-- The part holds in t what it holds in s. Memory is compared by MemRead of every address (R14). -/
def Part.Same (s t : State) : Part → Prop
  | .index => t.i = s.i
  | .stack => t.stack = s.stack ∧ t.sp = s.sp
  | .delayTimer => t.dt = s.dt
  | .soundTimer => t.st = s.st
  | .keypad => t.keys = s.keys
  | .screen => t.fb = s.fb
  | .memory => ∀ a, Memory.read t.mem a = Memory.read s.mem a
  | .random => t.rng = s.rng
  | .fault => t.fault = s.fault
  | .host => t.requests = s.requests ∧ t.response = s.response

/-- The frame: from s to t every general register outside regs and every part outside parts is unchanged. The program
counter may change. -/
def Frame (regs : List Reg) (parts : List Part) (s t : State) : Prop :=
  (∀ r, r ∉ regs → t.getV r = s.getV r) ∧ ∀ p, p ∉ parts → p.Same s t

/-- The general registers an instruction may write (R34). -/
def writtenRegs : Instr → List Reg
  | .cls => []
  | .ret => []
  | .jp _ => []
  | .call _ => []
  | .seImm _ _ => []
  | .sneImm _ _ => []
  | .seReg _ _ => []
  | .ldImm x _ => [x]
  | .addImm x _ => [x]
  | .ldReg x _ => [x]
  | .orReg x _ => [x]
  | .andReg x _ => [x]
  | .xorReg x _ => [x]
  | .addReg x _ => [x, VF]
  | .sub x _ => [x, VF]
  | .shr x _ => [x, VF]
  | .subn x _ => [x, VF]
  | .shl x _ => [x, VF]
  | .sneReg _ _ => []
  | .ldI _ => []
  | .jpV0 _ => []
  | .rnd x _ => [x]
  | .drw _ _ _ => [VF]
  | .skp _ => []
  | .sknp _ => []
  | .ldVxDt x => [x]
  | .ldVxK x => [x]
  | .ldDtVx _ => []
  | .ldStVx _ => []
  | .addI _ => []
  | .ldF _ => []
  | .ldB _ => []
  | .ldMemVx _ => []
  | .ldVxMem x => allRegs.take (x.val + 1)

/-- The other parts an instruction may write: the screen (R140), the stack (R41, R47), the index register (R46), the
timers (R42, R43), memory (R77), the random source (R49), the fault record (R313). No instruction writes the keypad
latch (R276). -/
def writtenParts : Instr → List Part
  | .cls => [.screen]
  | .ret => [.stack, .fault]
  | .jp _ => []
  | .call _ => [.stack, .fault]
  | .seImm _ _ => []
  | .sneImm _ _ => []
  | .seReg _ _ => []
  | .ldImm _ _ => []
  | .addImm _ _ => []
  | .ldReg _ _ => []
  | .orReg _ _ => []
  | .andReg _ _ => []
  | .xorReg _ _ => []
  | .addReg _ _ => []
  | .sub _ _ => []
  | .shr _ _ => []
  | .subn _ _ => []
  | .shl _ _ => []
  | .sneReg _ _ => []
  | .ldI _ => [.index]
  | .jpV0 _ => []
  | .rnd _ _ => [.random]
  | .drw _ _ _ => [.screen, .fault]
  | .skp _ => [.fault]
  | .sknp _ => [.fault]
  | .ldVxDt _ => []
  | .ldVxK _ => []
  | .ldDtVx _ => [.delayTimer]
  | .ldStVx _ => [.soundTimer]
  | .addI _ => [.index]
  | .ldF _ => [.index]
  | .ldB _ => [.memory, .fault]
  | .ldMemVx _ => [.memory, .fault]
  | .ldVxMem _ => [.fault]

/-- The one fault kind an instruction's execution can raise, if any (R313). -/
def raisable : Instr → Option FaultKind
  | .ret => some .stackUnderflow
  | .call _ => some .stackOverflow
  | .drw _ _ _ => some .memoryRange
  | .skp _ => some .keyRange
  | .sknp _ => some .keyRange
  | .ldB _ => some .memoryRange
  | .ldMemVx _ => some .memoryRange
  | .ldVxMem _ => some .memoryRange
  | .cls => none
  | .jp _ => none
  | .seImm _ _ => none
  | .sneImm _ _ => none
  | .seReg _ _ => none
  | .ldImm _ _ => none
  | .addImm _ _ => none
  | .ldReg _ _ => none
  | .orReg _ _ => none
  | .andReg _ _ => none
  | .xorReg _ _ => none
  | .addReg _ _ => none
  | .sub _ _ => none
  | .shr _ _ => none
  | .subn _ _ => none
  | .shl _ _ => none
  | .sneReg _ _ => none
  | .ldI _ => none
  | .jpV0 _ => none
  | .rnd _ _ => none
  | .ldVxDt _ => none
  | .ldVxK _ => none
  | .ldDtVx _ => none
  | .ldStVx _ => none
  | .addI _ => none
  | .ldF _ => none

/-! ## Kinds of state -/

/-- The core is halted by a fault (R44, R113). -/
def State.Halted (s : State) : Prop := s.fault.kind ≠ .none

/-- The next step is a Cycle: the host has queued nothing (log 1), or a Cycle first (R325). -/
def State.NextIsCycle (s : State) : Prop := s.requests.head? = none ∨ s.requests.head? = some .cycle

/-- A run has finished (R375): the core runs and the word at pc is a jump to pc itself. -/
def State.Finished (s : State) : Prop :=
  s.fault.kind = .none ∧ ∃ nnn : Addr12, s.fetch = some (encode (.jp nnn)) ∧ s.pc = zext16 nnn

/-- The return addresses of the pending calls, oldest first (R165). -/
def State.pending (s : State) : List Word := s.stack.toList.take s.sp.val

/-- Instructions executed one after another, each at an address of its own: the first word of a pair is pc during the
instruction, A + 2 (R36). None if one of them faults or is refused (R165). -/
def runNoFault : List (Word × Instr) → State → Option State
  | [], s => some s
  | (pc, i) :: rest, s =>
    match exec i (s.setPc pc) with
    | .next t => if t.fault.kind = .none then runNoFault rest t else none
    | .fault _ => none
    | .refused _ => none

/-- What the return stack holds after those instructions, as a plain list, oldest first: a CALL appends its address plus
2, a RET drops the newest, no other instruction touches it (R47, R165). -/
def returnStack : List (Word × Instr) → List Word → List Word
  | [], l => l
  | (pc, .call _) :: rest, l => returnStack rest (l ++ [pc])
  | (_, .ret) :: rest, l => returnStack rest l.dropLast
  | _ :: rest, l => returnStack rest l

/-- The instruction is a CALL. -/
def isCall : Instr → Bool
  | .call _ => true
  | _ => false

/-- The instruction is a RET. -/
def isRet : Instr → Bool
  | .ret => true
  | _ => false

/-- The two states differ at most in stack entries at sp and above, which no instruction can read (R51). -/
def SameButStale (s t : State) : Prop :=
  (∀ j : Fin 16, j.val < s.sp.val → t.stackAt j = s.stackAt j) ∧ { t with stack := s.stack } = s

/-! ## The sprite, as the draw rule's pseudocode places it (R142, R144) -/

/-- A set bit of the sprite of n rows at I, drawn at column xs and row ys under DRAW_EDGE = clip, falls on column px and
row py (R142, R144). -/
def State.spriteBit (s : State) (xs ys n px py : Nat) : Bool :=
  decide (xs ≤ px) && decide (px < xs + 8) && decide (ys ≤ py) && decide (py < ys + n) &&
    ((Memory.read s.mem (s.i.toNat + (py - ys))).getD 0).getLsbD (7 - (px - xs))

/-! ## The invariant -/

/-- What every reachable state satisfies: memory is in its canonical form; pc is at most 0x10FE and each pending return
address at most 0x1000 (R39); a fault record of kind None holds opcode 0 and pc 0 (R44). -/
structure Inv (s : State) : Prop where
  memory : s.mem.wf = true
  pc : s.pc.toNat ≤ 0x10FE
  returns : ∀ j : Fin 16, j.val < s.sp.val → (s.stackAt j).toNat ≤ 0x1000
  record : s.fault.kind = .none → s.fault = FaultRecord.clear

end Sys2Proof.Machine
end

