-- ==== Sys2Proof/Certificates/Slice0/Obligations.lean ====
section
/-! DEFINITION. The statements for the provers, one definition each, made from the spec's numbered rules. In `exec i s` the
state has pc = A + 2, where A is the instruction's address (10_state.md R36). -/

open Sys2Proof Sys2Proof.Machine

/-! ## Encoding and decode (30_encoding.md) -/

/-- DECODE AND ENCODE AGREE: the decoder gives back every instruction from its word, with every operand at every value
its field admits (R101, R102, R105). STRICT_DECODE = true is the spec's own setting, D12. -/
def Obligations.DecodeOfEncodeIsTheInstruction : Prop :=
  ∀ i : Instr, decodeWord (encode i) = .ok i

/-- The other direction: a word the decoder accepts is the word of the instruction it gives, so no bit of it is lost, the
don't-care y of SHR and SHL included (R104, R107). STRICT_DECODE = true is the spec's own setting, D12. -/
def Obligations.EncodeOfDecodeIsTheWord : Prop :=
  ∀ (w : Word) (i : Instr), decodeWord w = .ok i → encode i = w

/-- The decoder accepts exactly the words that match a row of the opcode map, and names that row; every other word is
rejected by name (R104 to R106). STRICT_DECODE = true is the spec's own setting, D12. -/
def Obligations.DecoderAcceptsExactlyTheOpcodeMap : Prop :=
  ∀ w : Word,
    (wordWellFormed true w = true → ∃ i, decodeWord w = .ok i ∧
      ∃ r ∈ opcodeTable true, r.name = i.mnemonic ∧ r.fits w = true) ∧
    (wordWellFormed true w = false → decodeWord w = .error (.unknownOpcode w))

/-- STRICT_DECODE = false changes groups 5 and 9 alone, which then ignore bits 3:0 (R116). -/
def Obligations.LaxDecodeChangesGroups5And9Only : Prop :=
  ∀ w : Word,
    (fieldGroup w = 5 → decodeWordWith false w = .ok (.seReg (fieldX w) (fieldY w))) ∧
    (fieldGroup w = 9 → decodeWordWith false w = .ok (.sneReg (fieldX w) (fieldY w))) ∧
    (fieldGroup w ≠ 5 → fieldGroup w ≠ 9 → decodeWordWith false w = decodeWordWith true w)

/-- The formats of R102: in the word of every instruction the group occupies bits 15:12, and the other fields the places
the format gives them. Written as the number the word is. -/
def Obligations.WordsFollowTheFormats : Prop :=
  (∀ nnn, (encode (.jp nnn)).toNat = 0x1000 + nnn.toNat ∧ (encode (.call nnn)).toNat = 0x2000 + nnn.toNat ∧
    (encode (.ldI nnn)).toNat = 0xA000 + nnn.toNat ∧ (encode (.jpV0 nnn)).toNat = 0xB000 + nnn.toNat) ∧
  (∀ x kk, (encode (.seImm x kk)).toNat = 0x3000 + x.val * 256 + kk.toNat ∧
    (encode (.sneImm x kk)).toNat = 0x4000 + x.val * 256 + kk.toNat ∧
    (encode (.ldImm x kk)).toNat = 0x6000 + x.val * 256 + kk.toNat ∧
    (encode (.addImm x kk)).toNat = 0x7000 + x.val * 256 + kk.toNat ∧
    (encode (.rnd x kk)).toNat = 0xC000 + x.val * 256 + kk.toNat) ∧
  (∀ x y, (encode (.seReg x y)).toNat = 0x5000 + x.val * 256 + y.val * 16 ∧
    (encode (.ldReg x y)).toNat = 0x8000 + x.val * 256 + y.val * 16 ∧
    (encode (.orReg x y)).toNat = 0x8001 + x.val * 256 + y.val * 16 ∧
    (encode (.andReg x y)).toNat = 0x8002 + x.val * 256 + y.val * 16 ∧
    (encode (.xorReg x y)).toNat = 0x8003 + x.val * 256 + y.val * 16 ∧
    (encode (.addReg x y)).toNat = 0x8004 + x.val * 256 + y.val * 16 ∧
    (encode (.sub x y)).toNat = 0x8005 + x.val * 256 + y.val * 16 ∧
    (encode (.shr x y)).toNat = 0x8006 + x.val * 256 + y.val * 16 ∧
    (encode (.subn x y)).toNat = 0x8007 + x.val * 256 + y.val * 16 ∧
    (encode (.shl x y)).toNat = 0x800E + x.val * 256 + y.val * 16 ∧
    (encode (.sneReg x y)).toNat = 0x9000 + x.val * 256 + y.val * 16) ∧
  (∀ x y n, (encode (.drw x y n)).toNat = 0xD000 + x.val * 256 + y.val * 16 + n.val) ∧
  (∀ x, (encode (.skp x)).toNat = 0xE09E + x.val * 256 ∧ (encode (.sknp x)).toNat = 0xE0A1 + x.val * 256 ∧
    (encode (.ldVxDt x)).toNat = 0xF007 + x.val * 256 ∧ (encode (.ldVxK x)).toNat = 0xF00A + x.val * 256 ∧
    (encode (.ldDtVx x)).toNat = 0xF015 + x.val * 256 ∧ (encode (.ldStVx x)).toNat = 0xF018 + x.val * 256 ∧
    (encode (.addI x)).toNat = 0xF01E + x.val * 256 ∧ (encode (.ldF x)).toNat = 0xF029 + x.val * 256 ∧
    (encode (.ldB x)).toNat = 0xF033 + x.val * 256 ∧ (encode (.ldMemVx x)).toNat = 0xF055 + x.val * 256 ∧
    (encode (.ldVxMem x)).toNat = 0xF065 + x.val * 256) ∧
  (encode .cls).toNat = 0x00E0 ∧ (encode .ret).toNat = 0x00EE

/-- A few words written out from the spec's encodings decode to the instructions they stand for, and two illegal words to
none (R105, R106). That 0x5121 is illegal rests on STRICT_DECODE = true, the spec's own setting, D12 (log 5). A sanity
statement. -/
def Obligations.SampleWordsDecode : Prop :=
  decodeWord 0x00E0 = .ok .cls ∧ decodeWord 0x2ABC = .ok (.call 0xABC) ∧ decodeWord 0x3342 = .ok (.seImm 3 0x42) ∧
  decodeWord 0x8AB4 = .ok (.addReg 0xA 0xB) ∧ decodeWord 0xC30F = .ok (.rnd 3 0x0F) ∧
  decodeWord 0xD125 = .ok (.drw 1 2 5) ∧ decodeWord 0xE1A1 = .ok (.sknp 1) ∧ decodeWord 0xFF65 = .ok (.ldVxMem 0xF) ∧
  decodeWord 0x5121 = .error (.unknownOpcode 0x5121) ∧ decodeWord 0x8018 = .error (.unknownOpcode 0x8018)

/-! ## The Cycle (30_encoding.md section 6, 60_exceptions.md) -/

/-- A STEP RUNS THE DECODED INSTRUCTION: in a running core whose next transaction is a Cycle (none queued, or a Cycle
first, log 1), where the word at pc decodes to i, the step is exec of i on the state with pc advanced by 2 (R36, R112), and then the
Cycle's result is reported to the host and nothing else changes (R118). That a step with none queued is a Cycle and that
the result stands in the state are the model's choices (logs 1 and 3), the three results the spec's own, D35. -/
def Obligations.StepRunsTheDecodedInstruction : Prop :=
  (∀ (s : State) (op : Word) (i : Instr), s.fault.kind = .none → s.fetch = some op → decodeWord op = .ok i →
    (s.requests = [] → step s = finishCycle (exec i { s with pc := s.pc + 2 })) ∧
    (∀ rest, s.requests = .cycle :: rest →
      step s = finishCycle (exec i { s with pc := s.pc + 2, requests := rest }))) ∧
  (∀ t : State, t.fault.kind = .none → finishCycle (.next t) = .next { t with response := .cycle .ok }) ∧
  (∀ t : State, t.fault.kind ≠ .none →
    finishCycle (.next t) = .next { t with response := .cycle (.fault t.fault.kind) })

/-- Instructions are big-endian: the opcode is mem[pc] * 256 + mem[pc + 1] (R74). -/
def Obligations.FetchIsBigEndian : Prop :=
  ∀ s : State, s.pc.toNat ≤ 0xFFE → ∃ (op : Word) (hi lo : Byte), s.fetch = some op ∧
    s.mem.read s.pc.toNat = some hi ∧ s.mem.read (s.pc.toNat + 1) = some lo ∧ op.toNat = hi.toNat * 256 + lo.toNat

/-- A Cycle (none queued, or a Cycle first, log 1) with pc >= 0xFFF takes FetchRange: the record holds opcode 0 and pc,
the fault is reported (log 3), and nothing else changes. The fault is the spec's own choice, D6 (and D1 for the record). -/
def Obligations.FetchBeyondMemoryFaults : Prop :=
  ∀ s : State, s.fault.kind = .none → s.NextIsCycle → 0xFFF ≤ s.pc.toNat →
    step s = .next { s with fault := { kind := .fetchRange, opcode := 0, pc := s.pc },
                            response := .cycle (.fault .fetchRange), requests := s.requests.tail }

/-- A Cycle (none queued, or a Cycle first, log 1) on a word that matches no row of the opcode map takes UnknownOpcode: pc
is A + 2, the record holds the word and A, the fault is reported (log 3), and nothing else changes. STRICT_DECODE is the
spec's own choice, D12 (log 5), and the record and the commit rule are, D1 and D3. -/
def Obligations.UnknownWordFaults : Prop :=
  ∀ (s : State) (op : Word), s.fault.kind = .none → s.NextIsCycle → s.fetch = some op →
    wordWellFormed true op = false →
    step s = .next { s with pc := s.pc + 2, fault := { kind := .unknownOpcode, opcode := op, pc := s.pc },
                            response := .cycle (.fault .unknownOpcode), requests := s.requests.tail }

/-- A halted core's Cycle (none queued, or a Cycle first, log 1) changes nothing and answers Halted (log 3). Halting is
the spec's own choice, D1. -/
def Obligations.HaltedCycleChangesNothing : Prop :=
  ∀ s : State, s.Halted → s.NextIsCycle →
    step s = .next { s with response := .cycle .halted, requests := s.requests.tail }

/-- While halted, no transaction but Reset clears the fault, moves pc or touches anything but memory, the timers and the
latch (LoadProgram, Tick, KeyWrite). The spec's own choice, D1, D18, D19. -/
def Obligations.OnlyResetLeavesTheHaltedState : Prop :=
  ∀ s t : State, s.Halted → s.requests.head? ≠ some .reset → step s = .next t →
    t.fault = s.fault ∧ t.pc = s.pc ∧ Frame [] [.memory, .delayTimer, .soundTimer, .keypad, .host] s t

/-- Faults are precise: an instruction either leaves the fault record as it was, or changes nothing but the record, which
then holds the one kind the instruction can raise, its word and its address. The record, the commit rule and the range
faults are the spec's own choice, D1 to D4, D15; the table of kinds is an inference the spec marks as derived (R313). That
the word is the instruction's encoding and its address pc - 2 is the model's inference (log 7), and that a fault is a next
state the model's form of D1 (log 8). -/
def Obligations.ExecutionFaultsArePrecise : Prop :=
  ∀ (i : Instr) (s t : State), exec i s = .next t →
    t.fault = s.fault ∨
    ∃ kind, raisable i = some kind ∧ t = { s with fault := { kind := kind, opcode := encode i, pc := s.pc - 2 } }

/-- Every instruction writes only the general registers the spec's table gives it, and only the other parts of the state
its rule names; in particular none writes the keypad latch. The table of registers is an inference the spec marks as
derived (10_state.md section 2); that the stack is apart from memory, that I stays after Fx55 and Fx65 and that rows with no
VF effect leave VF are the spec's own choice, D31, D16, D37; the fault record is written as log 8 says. -/
def Obligations.InstructionsWriteOnlyTheirOwnState : Prop :=
  ∀ (i : Instr) (s t : State), exec i s = .next t → Frame (writtenRegs i) (writtenParts i) s t

/-- No instruction and no transaction ends a run: every step of every state has a next state, the faults of the core
included, which are states (D1). Rests on VF_ALIAS = exact, the spec's own setting (D13). -/
def Obligations.EveryStepHasANextState : Prop :=
  ∀ s : State, ∃ t : State, step s = .next t

/-! ## Control flow (41_control_flow.md) -/

/-- JP sets pc to nnn (R162). -/
def Obligations.JumpGoesToItsTarget : Prop :=
  ∀ (nnn : Addr12) (s : State), ∃ t, exec (.jp nnn) s = .next t ∧ t.pc.toNat = nnn.toNat ∧ Frame [] [] s t

/-- JP V0 sets pc to nnn plus V0, not masked. That no mask is applied is the spec's own choice, D36. -/
def Obligations.IndexedJumpAddsV0 : Prop :=
  ∀ (nnn : Addr12) (s : State), ∃ t, exec (.jpV0 nnn) s = .next t ∧
    t.pc.toNat = nnn.toNat + (s.getV 0).toNat ∧ Frame [] [] s t

/-- CALL pushes the return address, which is pc during the instruction, and sets pc to nnn; with sp = 16 it raises
StackOverflow, pc and the stack staying (R163). The record, its kind's name and that pc stays at A + 2 are the spec's own
choice, D1, D2, D3 (log 8). -/
def Obligations.CallPushesTheReturnAddress : Prop :=
  ∀ (nnn : Addr12) (s : State),
    (∀ h : s.sp.val < 16, ∃ t, exec (.call nnn) s = .next t ∧ t.sp.val = s.sp.val + 1 ∧
      t.stackAt ⟨s.sp.val, h⟩ = s.pc ∧ (∀ j : Fin 16, j.val ≠ s.sp.val → t.stackAt j = s.stackAt j) ∧
      t.pc.toNat = nnn.toNat ∧ Frame [] [.stack] s t) ∧
    (s.sp.val = 16 → ∃ t, exec (.call nnn) s = .next t ∧ t.fault.kind = .stackOverflow ∧ t.pc = s.pc ∧
      Frame [] [.fault] s t)

/-- RET pops the top return address into pc, and the entry is not cleared; with sp = 0 it raises StackUnderflow, pc and
the stack staying (R161). The record, its kind's name and that pc stays at A + 2 are the spec's own choice, D1, D2, D3
(log 8). -/
def Obligations.ReturnPopsTheTopAddress : Prop :=
  ∀ s : State,
    (0 < s.sp.val → ∀ hj : s.sp.val - 1 < 16, ∃ t, exec .ret s = .next t ∧ t.sp.val = s.sp.val - 1 ∧
      t.pc = s.stackAt ⟨s.sp.val - 1, hj⟩ ∧ t.stack = s.stack ∧ Frame [] [.stack] s t) ∧
    (s.sp.val = 0 → ∃ t, exec .ret s = .next t ∧ t.fault.kind = .stackUnderflow ∧ t.pc = s.pc ∧ Frame [] [.fault] s t)

/-- The call stack is the list of pending return addresses: after any sequence of instructions that raises no fault,
whatever their addresses, the pending addresses are what appending at each CALL and dropping the newest at each RET
gives, and sp counts the CALLs minus the RETs. An inference the spec marks as derived (41_control_flow.md section 6); that no
other instruction touches the stack, which is apart from memory, is the spec's own choice, D31. -/
def Obligations.CallStackRefinesAList : Prop :=
  ∀ (prog : List (Word × Instr)) (s t : State), runNoFault prog s = some t →
    t.pending = returnStack prog s.pending ∧
    t.sp.val + prog.countP (fun p => isRet p.2) = s.sp.val + prog.countP (fun p => isCall p.2)

/-- A RET resumes the most recent pending CALL: the address it goes to is the newest pending one, which it removes. An
inference the spec marks as derived (41_control_flow.md section 6). -/
def Obligations.ReturnResumesTheNewestCall : Prop :=
  ∀ s t : State, 0 < s.sp.val → exec .ret s = .next t → s.pending = t.pending ++ [t.pc]

/-! ## Skips (42_skips.md) -/

/-- SE Vx, kk skips if Vx equals kk, SNE Vx, kk if it does not (R181, R182). -/
def Obligations.ImmediateSkips : Prop :=
  ∀ (x : Reg) (kk : Byte) (s : State),
    (∃ t, exec (.seImm x kk) s = .next t ∧
      t.pc = (if (s.getV x).toNat = kk.toNat then s.pc + 2 else s.pc) ∧ Frame [] [] s t) ∧
    (∃ t, exec (.sneImm x kk) s = .next t ∧
      t.pc = (if (s.getV x).toNat = kk.toNat then s.pc else s.pc + 2) ∧ Frame [] [] s t)

/-- SE Vx, Vy skips if Vx equals Vy, SNE Vx, Vy if they differ (R183, R184). -/
def Obligations.RegisterSkips : Prop :=
  ∀ (x y : Reg) (s : State),
    (∃ t, exec (.seReg x y) s = .next t ∧
      t.pc = (if (s.getV x).toNat = (s.getV y).toNat then s.pc + 2 else s.pc) ∧ Frame [] [] s t) ∧
    (∃ t, exec (.sneReg x y) s = .next t ∧
      t.pc = (if (s.getV x).toNat = (s.getV y).toNat then s.pc else s.pc + 2) ∧ Frame [] [] s t)

/-! ## ALU (43_alu.md) -/

/-- LD Vx, kk loads the byte and LD Vx, Vy copies Vy (R202, R204). -/
def Obligations.LoadsWriteTheRegister : Prop :=
  ∀ (x y : Reg) (kk : Byte) (s : State),
    (∃ t, exec (.ldImm x kk) s = .next t ∧ t.getV x = kk ∧ t.pc = s.pc ∧ Frame [x] [] s t) ∧
    (∃ t, exec (.ldReg x y) s = .next t ∧ t.getV x = s.getV y ∧ t.pc = s.pc ∧ Frame [x] [] s t)

/-- ADD Vx, kk adds modulo 256 and sets no flag: VF is unchanged unless x = F (R203). -/
def Obligations.AddImmediateWrapsWithoutFlag : Prop :=
  ∀ (x : Reg) (kk : Byte) (s : State), ∃ t, exec (.addImm x kk) s = .next t ∧
    (t.getV x).toNat = ((s.getV x).toNat + kk.toNat) % 256 ∧ t.pc = s.pc ∧ Frame [x] [] s t

/-- OR, AND and XOR combine Vx and Vy bit by bit and change nothing else. That VF stays is the spec's own choice, D37. -/
def Obligations.BitwiseInstructions : Prop :=
  ∀ (x y : Reg) (s : State),
    (∃ t, exec (.orReg x y) s = .next t ∧ t.pc = s.pc ∧ Frame [x] [] s t ∧
      ∀ k, (t.getV x).getLsbD k = ((s.getV x).getLsbD k || (s.getV y).getLsbD k)) ∧
    (∃ t, exec (.andReg x y) s = .next t ∧ t.pc = s.pc ∧ Frame [x] [] s t ∧
      ∀ k, (t.getV x).getLsbD k = ((s.getV x).getLsbD k && (s.getV y).getLsbD k)) ∧
    (∃ t, exec (.xorReg x y) s = .next t ∧ t.pc = s.pc ∧ Frame [x] [] s t ∧
      ∀ k, (t.getV x).getLsbD k = ((s.getV x).getLsbD k ^^ (s.getV y).getLsbD k))

/-- ADD Vx, Vy: Vx is the sum of the old values modulo 256 and VF the carry; with x = F the flag, written last, is what
VF holds (R208). That a form with a VF operand has this meaning is the spec's own choice, D13 (VF_ALIAS = exact, log 5). -/
def Obligations.AddSetsTheCarry : Prop :=
  ∀ (x y : Reg) (s : State), ∃ t, exec (.addReg x y) s = .next t ∧
    (t.getV VF).toNat = (if (s.getV x).toNat + (s.getV y).toNat > 255 then 1 else 0) ∧
    (x ≠ VF → (t.getV x).toNat = ((s.getV x).toNat + (s.getV y).toNat) % 256) ∧ t.pc = s.pc ∧ Frame [x, VF] [] s t

/-- SUB in every form: the flag is Vx > Vy of the old values and is written first, so with x or y = F the subtraction
reads it. The order on a VF operand is the spec's own choice, D13. -/
def Obligations.SubtractInEveryForm : Prop :=
  ∀ (x y : Reg) (s : State), ∃ t, exec (.sub x y) s = .next t ∧ t.pc = s.pc ∧ Frame [x, VF] [] s t ∧
    (x ≠ VF → (t.getV VF).toNat = (if (s.getV x).toNat > (s.getV y).toNat then 1 else 0)) ∧
    (x ≠ VF → y ≠ VF → (t.getV x).toNat = (256 + (s.getV x).toNat - (s.getV y).toNat) % 256) ∧
    (x ≠ VF → y = VF → (t.getV x).toNat =
      (256 + (s.getV x).toNat - (if (s.getV x).toNat > (s.getV y).toNat then 1 else 0)) % 256) ∧
    (x = VF → y ≠ VF → (t.getV VF).toNat =
      (256 + (if (s.getV x).toNat > (s.getV y).toNat then 1 else 0) - (s.getV y).toNat) % 256) ∧
    (x = VF → y = VF → (t.getV VF).toNat = 0)

/-- SUBN in every form: the flag is Vy > Vx of the old values and is written first, so with x or y = F the subtraction
reads it. The order on a VF operand is the spec's own choice, D13. -/
def Obligations.ReverseSubtractInEveryForm : Prop :=
  ∀ (x y : Reg) (s : State), ∃ t, exec (.subn x y) s = .next t ∧ t.pc = s.pc ∧ Frame [x, VF] [] s t ∧
    (x ≠ VF → (t.getV VF).toNat = (if (s.getV y).toNat > (s.getV x).toNat then 1 else 0)) ∧
    (x ≠ VF → y ≠ VF → (t.getV x).toNat = (256 + (s.getV y).toNat - (s.getV x).toNat) % 256) ∧
    (x ≠ VF → y = VF → (t.getV x).toNat =
      (256 + (if (s.getV y).toNat > (s.getV x).toNat then 1 else 0) - (s.getV x).toNat) % 256) ∧
    (x = VF → y ≠ VF → (t.getV VF).toNat =
      (256 + (s.getV y).toNat - (if (s.getV y).toNat > (s.getV x).toNat then 1 else 0)) % 256) ∧
    (x = VF → y = VF → (t.getV VF).toNat = 0)

/-- SHR and SHL in every form: VF gets the bit shifted out and Vx is shifted by one, Vy playing no part; with x = F the
shift reads the flag just written. The order on a VF operand is the spec's own choice, D13. -/
def Obligations.ShiftsInEveryForm : Prop :=
  ∀ (x y : Reg) (s : State),
    (∃ t, exec (.shr x y) s = .next t ∧ t.pc = s.pc ∧ Frame [x, VF] [] s t ∧
      (x ≠ VF → (t.getV VF).toNat = (s.getV x).toNat % 2 ∧ (t.getV x).toNat = (s.getV x).toNat / 2) ∧
      (x = VF → (t.getV VF).toNat = 0)) ∧
    (∃ t, exec (.shl x y) s = .next t ∧ t.pc = s.pc ∧ Frame [x, VF] [] s t ∧
      (x ≠ VF → (t.getV VF).toNat = (s.getV x).toNat / 128 ∧ (t.getV x).toNat = (s.getV x).toNat * 2 % 256) ∧
      (x = VF → (t.getV VF).toNat = if (s.getV x).toNat ≥ 128 then 2 else 0))

/-- RND writes the byte of one fresh draw ANDed with kk, whatever that byte is: bits where kk has 0 are 0, bits where kk
has 1 are the draw's, and the next draw is another one. The free draw is the spec's own treatment, D28 (log 2). -/
def Obligations.RandomByteIsMasked : Prop :=
  ∀ (x : Reg) (kk : Byte) (s : State), ∃ t, exec (.rnd x kk) s = .next t ∧
    (∀ k, (t.getV x).getLsbD k = ((Config.randByte s.rng).getLsbD k && kk.getLsbD k)) ∧
    s.rng < t.rng ∧ t.pc = s.pc ∧ Frame [x] [.random] s t

/-! ## Index register and memory (44_index_memory.md) -/

/-- LD I loads the 12-bit address nnn into I (R241). -/
def Obligations.IndexLoadsTheAddress : Prop :=
  ∀ (nnn : Addr12) (s : State), ∃ t, exec (.ldI nnn) s = .next t ∧ t.i.toNat = nnn.toNat ∧ t.pc = s.pc ∧
    Frame [] [.index] s t

/-- ADD I adds Vx to I modulo 65536 and sets no flag. The 16-bit width is the spec's own choice, D8. -/
def Obligations.AddToIndexWrapsAt16Bits : Prop :=
  ∀ (x : Reg) (s : State), ∃ t, exec (.addI x) s = .next t ∧
    t.i.toNat = (s.i.toNat + (s.getV x).toNat) % 65536 ∧ t.pc = s.pc ∧ Frame [] [.index] s t

/-- LD F points I at the glyph for digit Vx: 0x050 + 5 * Vx, Vx not reduced. The spec's own choice, D17. -/
def Obligations.FontPointerIsBasePlusFiveTimesVx : Prop :=
  ∀ (x : Reg) (s : State), ∃ t, exec (.ldF x) s = .next t ∧ t.i.toNat = 0x050 + 5 * (s.getV x).toNat ∧
    t.pc = s.pc ∧ Frame [] [.index] s t

/-- LD B stores the decimal digits of Vx at I, I + 1 and I + 2 and nothing else; if one of them lies above 0xFFF it raises
MemoryRange and no byte is written (R244). That this is a fault, and the record, are the spec's
own choice, D4, D1 (log 8). Memory is in its canonical form
(StepKeepsTheInvariant). -/
def Obligations.DecimalDigitsAreStored : Prop :=
  ∀ (x : Reg) (s : State), s.mem.wf = true →
    (s.indexAddr 2 ≤ 0xFFF → ∃ t, exec (.ldB x) s = .next t ∧
      (t.mem.read (s.indexAddr 0)).map BitVec.toNat = some ((s.getV x).toNat / 100) ∧
      (t.mem.read (s.indexAddr 1)).map BitVec.toNat = some ((s.getV x).toNat / 10 % 10) ∧
      (t.mem.read (s.indexAddr 2)).map BitVec.toNat = some ((s.getV x).toNat % 10) ∧
      (∀ a, a < s.indexAddr 0 ∨ s.indexAddr 2 < a → t.mem.read a = s.mem.read a) ∧ t.pc = s.pc ∧
      Frame [] [.memory] s t) ∧
    (0xFFF < s.indexAddr 2 → ∃ t, exec (.ldB x) s = .next t ∧ t.fault.kind = .memoryRange ∧ t.pc = s.pc ∧
      Frame [] [.fault] s t)

/-- LD [I] stores V0 to Vx from I upwards and nothing else, I unchanged; if I + x lies above 0xFFF it raises MemoryRange
and no byte is written. That I stays and the fault are the spec's own choice, D16, D4. Memory is in its canonical form
(StepKeepsTheInvariant). -/
def Obligations.RegisterBlockIsStored : Prop :=
  ∀ (x : Reg) (s : State), s.mem.wf = true →
    (s.indexAddr x.val ≤ 0xFFF → ∃ t, exec (.ldMemVx x) s = .next t ∧
      (∀ j : Reg, j ≤ x → t.mem.read (s.indexAddr j.val) = some (s.getV j)) ∧
      (∀ a, a < s.indexAddr 0 ∨ s.indexAddr x.val < a → t.mem.read a = s.mem.read a) ∧ t.pc = s.pc ∧
      Frame [] [.memory] s t) ∧
    (0xFFF < s.indexAddr x.val → ∃ t, exec (.ldMemVx x) s = .next t ∧ t.fault.kind = .memoryRange ∧ t.pc = s.pc ∧
      Frame [] [.fault] s t)

/-- LD Vx, [I] loads V0 to Vx from memory from I upwards and no other register, I unchanged; if I + x lies above 0xFFF it
raises MemoryRange and no register is written. That I stays and the fault are the spec's own choice, D16, D4. -/
def Obligations.RegisterBlockIsLoaded : Prop :=
  ∀ (x : Reg) (s : State),
    (s.indexAddr x.val ≤ 0xFFF → ∃ t, exec (.ldVxMem x) s = .next t ∧
      (∀ j : Reg, j ≤ x → some (t.getV j) = s.mem.read (s.indexAddr j.val)) ∧
      (∀ j : Reg, x < j → t.getV j = s.getV j) ∧ t.pc = s.pc ∧ Frame (allRegs.take (x.val + 1)) [] s t) ∧
    (0xFFF < s.indexAddr x.val → ∃ t, exec (.ldVxMem x) s = .next t ∧ t.fault.kind = .memoryRange ∧ t.pc = s.pc ∧
      Frame [] [.fault] s t)

/-- An Fx55 followed by an Fx65 with the same x and I, with no memory write between, gives V0 to Vx their values back and
leaves memory as the Fx55 left it, whatever else happened between. An inference the spec marks as derived
(44_index_memory.md section 7). -/
def Obligations.StoreThenLoadRestoresTheRegisters : Prop :=
  ∀ (x : Reg) (s : State), s.mem.wf = true → s.indexAddr x.val ≤ 0xFFF →
    ∃ t, exec (.ldMemVx x) s = .next t ∧
      ∀ u : State, u.i = s.i → u.mem = t.mem →
        ∃ w, exec (.ldVxMem x) u = .next w ∧ (∀ j : Reg, j ≤ x → w.getV j = s.getV j) ∧ w.mem = t.mem

/-- A store is seen by the very next fetch: after an Fx55 or an Fx33 the next Cycle fetches, at each of the two addresses
pc and pc + 1, the byte the instruction stored there, wherever its range meets them, and the byte that was there where it
does not. An inference the spec marks as derived (20_memory.md section 7). Memory is in its canonical form
(StepKeepsTheInvariant). -/
def Obligations.StoreIsSeenByTheNextFetch : Prop :=
  ∀ (x : Reg) (s : State), s.mem.wf = true → s.pc.toNat ≤ 0xFFE →
    (s.indexAddr x.val ≤ 0xFFF → ∃ (t : State) (hi lo : Byte), exec (.ldMemVx x) s = .next t ∧ t.pc = s.pc ∧
      t.fetch.map BitVec.toNat = some (hi.toNat * 256 + lo.toNat) ∧
      (∀ j : Reg, j ≤ x → s.indexAddr j.val = s.pc.toNat → hi = s.getV j) ∧
      (∀ j : Reg, j ≤ x → s.indexAddr j.val = s.pc.toNat + 1 → lo = s.getV j) ∧
      (s.pc.toNat < s.indexAddr 0 ∨ s.indexAddr x.val < s.pc.toNat → s.mem.read s.pc.toNat = some hi) ∧
      (s.pc.toNat + 1 < s.indexAddr 0 ∨ s.indexAddr x.val < s.pc.toNat + 1 →
        s.mem.read (s.pc.toNat + 1) = some lo)) ∧
    (s.indexAddr 2 ≤ 0xFFF → ∃ (t : State) (hi lo : Byte), exec (.ldB x) s = .next t ∧ t.pc = s.pc ∧
      t.fetch.map BitVec.toNat = some (hi.toNat * 256 + lo.toNat) ∧
      (∀ k, k < 3 → s.indexAddr k = s.pc.toNat → hi.toNat = (s.getV x).toNat / 10 ^ (2 - k) % 10) ∧
      (∀ k, k < 3 → s.indexAddr k = s.pc.toNat + 1 → lo.toNat = (s.getV x).toNat / 10 ^ (2 - k) % 10) ∧
      (s.pc.toNat < s.indexAddr 0 ∨ s.indexAddr 2 < s.pc.toNat → s.mem.read s.pc.toNat = some hi) ∧
      (s.pc.toNat + 1 < s.indexAddr 0 ∨ s.indexAddr 2 < s.pc.toNat + 1 → s.mem.read (s.pc.toNat + 1) = some lo))

/-! ## Keypad (45_keypad.md) -/

/-- SKP skips if the key numbered Vx is pressed, SKNP if it is not; for a number above 15 both raise KeyRange and pc
stays (R271, R272). That this is a fault, and the record, are the spec's own choice, D15, D1 (log 8). -/
def Obligations.KeySkips : Prop :=
  ∀ (x : Reg) (s : State),
    ((s.getV x).toNat ≤ 15 →
      (∃ t, exec (.skp x) s = .next t ∧
        t.pc = (if s.keys.getLsbD (s.getV x).toNat = true then s.pc + 2 else s.pc) ∧ Frame [] [] s t) ∧
      (∃ t, exec (.sknp x) s = .next t ∧
        t.pc = (if s.keys.getLsbD (s.getV x).toNat = true then s.pc else s.pc + 2) ∧ Frame [] [] s t)) ∧
    (15 < (s.getV x).toNat →
      (∃ t, exec (.skp x) s = .next t ∧ t.fault.kind = .keyRange ∧ t.pc = s.pc ∧ Frame [] [.fault] s t) ∧
      (∃ t, exec (.sknp x) s = .next t ∧ t.fault.kind = .keyRange ∧ t.pc = s.pc ∧ Frame [] [.fault] s t))

/-- LD Vx, K takes the lowest pressed key; with no key pressed it sets pc back by 2. The lowest key is the spec's own
choice, D14. -/
def Obligations.KeyWaitTakesTheLowestKey : Prop :=
  ∀ (x : Reg) (s : State),
    (∀ k : Reg, s.keys.getLsbD k.val = true → (∀ j : Reg, j < k → s.keys.getLsbD j.val = false) →
      ∃ t, exec (.ldVxK x) s = .next t ∧ (t.getV x).toNat = k.val ∧ t.pc = s.pc ∧ Frame [x] [] s t) ∧
    ((∀ k : Reg, s.keys.getLsbD k.val = false) →
      ∃ t, exec (.ldVxK x) s = .next t ∧ t.pc = s.pc - 2 ∧ Frame [] [] s t)

/-- A waiting Fx0A is no special state: with no key pressed, the Cycle (none queued, or a Cycle first, log 1) answers Ok
(log 3) and leaves the whole state as it was, so that the next Cycle fetches the same word again. An inference the spec marks as derived (45_keypad.md section 4). -/
def Obligations.KeyWaitSpins : Prop :=
  ∀ (x : Reg) (s : State), s.fault.kind = .none → s.NextIsCycle → s.fetch = some (encode (.ldVxK x)) →
    (∀ k : Reg, s.keys.getLsbD k.val = false) →
      step s = .next { s with response := .cycle .ok, requests := s.requests.tail }

/-! ## Timers (46_timers.md, 60_exceptions.md section 7) -/

/-- LD Vx, DT copies the delay timer, LD DT, Vx loads it and LD ST, Vx loads the sound timer, with no notification (R291,
R292, R293). -/
def Obligations.TimerMoves : Prop :=
  ∀ (x : Reg) (s : State),
    (∃ t, exec (.ldVxDt x) s = .next t ∧ t.getV x = s.dt ∧ t.pc = s.pc ∧ Frame [x] [] s t) ∧
    (∃ t, exec (.ldDtVx x) s = .next t ∧ t.dt = s.getV x ∧ t.pc = s.pc ∧ Frame [] [.delayTimer] s t) ∧
    (∃ t, exec (.ldStVx x) s = .next t ∧ t.st = s.getV x ∧ t.pc = s.pc ∧ Frame [] [.soundTimer] s t)

/-- A Tick decrements each nonzero timer by one and notifies exactly when the sound timer was 1, in any state of the core,
and touches nothing else (R321). That it runs the same in a halted core is the spec's own choice, D18; where the notification
stands in the state and that the Tick is taken off the queue are the model's (logs 3 and 1). -/
def Obligations.TickCountsBothTimersDown : Prop :=
  ∀ (s : State) (rest : List Transaction), s.requests = .tick :: rest →
    ∃ t, step s = .next t ∧ t.dt.toNat = s.dt.toNat - 1 ∧ t.st.toNat = s.st.toNat - 1 ∧
      t.soundNotify = decide (s.st.toNat = 1) ∧ t.requests = rest ∧ t.pc = s.pc ∧
      Frame [] [.delayTimer, .soundTimer, .host] s t

/-- No instruction reads ST, and none but RND depends on the random source: two states that differ only there give
states that differ only there. An inference from the spec's rules (10_state.md sections 5 and 8). -/
def Obligations.SoundTimerAndRandomSourceAreNotRead : Prop :=
  ∀ (i : Instr) (s t : State), exec i s = .next t →
    (∀ st : Byte, ∃ t', exec i { s with st := st } = .next t' ∧ { t' with st := t.st } = t) ∧
    ((∀ x kk, i ≠ .rnd x kk) → ∀ rng : Nat, exec i { s with rng := rng } = .next { t with rng := rng })

/-! ## Display (40_display.md) -/

/-- CLS turns every pixel off (R141). -/
def Obligations.ClearTurnsEveryPixelOff : Prop :=
  ∀ s : State, ∃ t, exec .cls s = .next t ∧ (∀ px py, t.fb.pixel px py = false) ∧ t.pc = s.pc ∧
    Frame [] [.screen] s t

/-- DRW inverts exactly the pixels on which a set bit of the n sprite bytes at I falls, from column Vx mod 64 and row Vy
mod 32 on, clipped at the edges, and VF is 1 exactly if one of them was on, else 0; n = 0 draws nothing. Clipping, the
cleared VF and n = 0 are the spec's own choice, D9 to D11. -/
def Obligations.DrawInvertsExactlyTheSprite : Prop :=
  ∀ (x y : Reg) (n : RowCount) (s : State), n.val = 0 ∨ s.indexAddr n.val ≤ 0x1000 →
    ∃ t, exec (.drw x y n) s = .next t ∧
      (∀ px py, px < 64 → py < 32 → t.fb.pixel px py =
        (s.fb.pixel px py ^^ s.spriteBit ((s.getV x).toNat % 64) ((s.getV y).toNat % 32) n.val px py)) ∧
      ((t.getV VF).toNat = 1 ↔ ∃ px py, px < 64 ∧ py < 32 ∧ s.fb.pixel px py = true ∧
        s.spriteBit ((s.getV x).toNat % 64) ((s.getV y).toNat % 32) n.val px py = true) ∧
      (t.getV VF).toNat ≤ 1 ∧ t.pc = s.pc ∧ Frame [VF] [.screen] s t

/-- DRW with a sprite byte above 0xFFF raises MemoryRange and leaves VF and the screen as they were. The spec's own
choice, D4. -/
def Obligations.DrawBeyondMemoryFaults : Prop :=
  ∀ (x y : Reg) (n : RowCount) (s : State), 0 < n.val → 0x1000 < s.indexAddr n.val →
    ∃ t, exec (.drw x y n) s = .next t ∧ t.fault.kind = .memoryRange ∧ t.pc = s.pc ∧ Frame [] [.fault] s t

/-- Drawing the same sprite twice at the same place restores the screen, and the second VF is 1 exactly if a drawn set bit
found its pixel off before the first draw. An inference the spec marks as derived (40_display.md section 3, C13); clipping is
D9. -/
def Obligations.DrawingTwiceRestoresTheScreen : Prop :=
  ∀ (x y : Reg) (n : RowCount) (s : State), x ≠ VF → y ≠ VF → n.val = 0 ∨ s.indexAddr n.val ≤ 0x1000 →
    ∃ t u, exec (.drw x y n) s = .next t ∧ exec (.drw x y n) t = .next u ∧ u.fb = s.fb ∧
      ((u.getV VF).toNat = 1 ↔ ∃ px py, px < 64 ∧ py < 32 ∧ s.fb.pixel px py = false ∧
        s.spriteBit ((s.getV x).toNat % 64) ((s.getV y).toNat % 32) n.val px py = true)

/-! ## Host transactions, reset and load (60_exceptions.md section 8, 70_reset_and_hazards.md) -/

/-- LoadProgram copies an image of at most 3584 bytes to 0x200 upwards and writes nothing else; a longer one is a load
error (R365). That a load error writes nothing, that nothing but the image is written and that a halted core loads too are the
spec's own choice, D19; where the answer stands in the state and that the transaction is taken off the queue are the model's
(logs 3 and 1). Memory is in its canonical form (StepKeepsTheInvariant). -/
def Obligations.LoadProgramCopiesTheImage : Prop :=
  ∀ (s : State) (image : List Byte) (rest : List Transaction), s.mem.wf = true →
    s.requests = .loadProgram image :: rest →
    (image.length ≤ 3584 → ∃ t, step s = .next t ∧ t.response = .load .ok ∧ t.requests = rest ∧ t.pc = s.pc ∧
      (∀ k (h : k < image.length), t.mem.read (0x200 + k) = some image[k]) ∧
      (∀ a, a < 0x200 ∨ 0x200 + image.length ≤ a → t.mem.read a = s.mem.read a) ∧ Frame [] [.memory, .host] s t) ∧
    (3584 < image.length → ∃ t, step s = .next t ∧ t.response = .load .loadError ∧ t.requests = rest ∧ t.pc = s.pc ∧
      Frame [] [.host] s t)

/-- KeyWrite replaces the whole latch; KeyRead, FbRead and StatusRead give the latch, the screen and the fault record
and change nothing; and the screen the host reads has fb[py][px] at bit py * 64 + px. KeyWrite's unit, the screen's order
and StatusRead are the spec's own choice, D33, D21, D1. That the answers stand in `response` and that the transaction is taken
off the queue `requests` are the model's choices (logs 3 and 1). -/
def Obligations.KeyWriteAndHostReads : Prop :=
  (∀ (s : State) (latch : BitVec 16) (rest : List Transaction), s.requests = .keyWrite latch :: rest →
    ∃ t, step s = .next t ∧ t.keys = latch ∧ t.requests = rest ∧ t.pc = s.pc ∧ Frame [] [.keypad, .host] s t) ∧
  (∀ (s : State) (rest : List Transaction),
    (s.requests = .keyRead :: rest → step s = .next { s with requests := rest, response := .keys s.keys }) ∧
    (s.requests = .fbRead :: rest → step s = .next { s with requests := rest, response := .framebuffer s.fb }) ∧
    (s.requests = .statusRead :: rest → step s = .next { s with requests := rest, response := .status s.fault })) ∧
  (∀ (fb : Framebuffer) (px py : Nat), px < 64 → fb.hostBit (py * 64 + px) = fb.pixel px py)

/-- What Reset leaves in every register, the stack, the timers, the latch, the screen, memory and the fault record, under
every value of the parameter FONT; and `State.reset` is this machine under the spec's FONT, whose bytes are general knowledge
(D27, log 4). The zeroed memory and the fault record are the spec's own choice (D32, D1); requests and the response are the
model's own (logs 1 and 3). -/
def Obligations.ResetValues : Prop :=
  State.resetWith Config.font = State.reset ∧
  ∀ font : Config.FontTable, ∃ r : State, State.resetWith font = r ∧
    (∀ q : Reg, r.getV q = 0) ∧ r.i = 0 ∧ r.pc = 0x200 ∧ r.sp.val = 0 ∧ (∀ j : Fin 16, r.stackAt j = 0) ∧
    r.dt = 0 ∧ r.st = 0 ∧ r.keys = 0 ∧ (∀ px py, r.fb.pixel px py = false) ∧ r.soundNotify = false ∧
    r.fault = { kind := .none, opcode := 0, pc := 0 } ∧ r.mem.wf = true ∧
    (∀ k : Fin 80, r.mem.read (0x050 + k.val) = some font[k]) ∧
    (∀ a, a < 0x050 ∨ 0x0A0 ≤ a ∧ a < 0x1000 → r.mem.read a = some 0)

/-- The Reset transaction brings any state, a halted one too, to the reset values; the random source goes on (log 2),
the rest of the host's queue stays (log 1) and the answer stands in `response` (log 3). That Reset and construction are one operation and that it clears the fault are the spec's own choice,
D32, D1. -/
def Obligations.ResetTransactionRestoresEverything : Prop :=
  ∀ (s : State) (rest : List Transaction), s.requests = .reset :: rest →
    ∃ t, step s = .next t ∧ Frame [] [.random, .host] State.reset t ∧ t.pc = 0x200 ∧ t.rng = s.rng ∧
      t.requests = rest ∧ t.response = .done

/-- The idle loop is an end: with a jump to itself at pc, a Cycle (none queued, or a Cycle first, log 1) changes nothing
and answers Ok (log 3), so the run has finished. The definition
of a finished run is the spec's own choice, D30. -/
def Obligations.IdleLoopIsFinal : Prop :=
  ∀ s : State, s.Finished → s.NextIsCycle →
    step s = .next { s with response := .cycle .ok, requests := s.requests.tail }

/-! ## Invariants and whole-machine rules -/

/-- The invariant holds right after Reset. -/
def Obligations.ResetMeetsTheInvariant : Prop := Inv State.reset

/-- AN INVARIANT EVERY STEP KEEPS, whatever the transaction: memory stays canonical, pc stays at most 0x10FE and each
pending return address at most 0x1000, and a record of kind None holds zeros. The pc bound is an inference the spec marks as
derived (10_state.md section 3). -/
def Obligations.StepKeepsTheInvariant : Prop :=
  ∀ s t : State, Inv s → step s = .next t → Inv t

/-- Stack entries at sp and above are unobservable: two states that differ only there step to states that differ only
there. The spec's own choice, D31. -/
def Obligations.StaleStackEntriesAreUnobservable : Prop :=
  ∀ s t s' : State, SameButStale s t → step s = .next s' → ∃ t', step t = .next t' ∧ SameButStale s' t'
end

