-- ==== Sys2Proof/Laws/Decode.lean ====
section
/-! SUPPORT. Fields and formats as numbers: what each field of a word is, what word each format makes, and the fields of a
format's word (30_encoding.md R101, R102). -/

namespace Sys2Proof

/-- Concatenation as a number: hi above lo (R12). -/
theorem append_toNat {v w : Nat} (hi : BitVec v) (lo : BitVec w) : (hi ++ lo).toNat = hi.toNat * 2 ^ w + lo.toNat := by
  rw [BitVec.toNat_append, ← Nat.shiftLeft_add_eq_or_of_lt lo.isLt, Nat.shiftLeft_eq]

/-! ## The fields of a word -/

@[simp] theorem fieldGroup_toNat (w : Word) : (fieldGroup w).toNat = w.toNat / 4096 := by
  have := w.isLt
  simp [fieldGroup, Nat.shiftRight_eq_div_pow]
  omega

@[simp] theorem fieldX_val (w : Word) : (fieldX w).val = w.toNat / 256 % 16 := by
  simp [fieldX, Nat.shiftRight_eq_div_pow]

@[simp] theorem fieldY_val (w : Word) : (fieldY w).val = w.toNat / 16 % 16 := by
  simp [fieldY, Nat.shiftRight_eq_div_pow]

@[simp] theorem fieldS_toNat (w : Word) : (fieldS w).toNat = w.toNat % 16 := by
  simp [fieldS]

@[simp] theorem fieldN_val (w : Word) : (fieldN w).val = w.toNat % 16 := by
  simp [fieldN]

@[simp] theorem fieldKk_toNat (w : Word) : (fieldKk w).toNat = w.toNat % 256 := by
  simp [fieldKk]

@[simp] theorem fieldNnn_toNat (w : Word) : (fieldNnn w).toNat = w.toNat % 4096 := by
  simp [fieldNnn]

/-! ## The words of the formats -/

@[simp] theorem nibble_toNat (r : Fin 16) : (nibble r).toNat = r.val := rfl

theorem wordN_toNat (g : BitVec 4) (nnn : Addr12) : (wordN g nnn).toNat = g.toNat * 4096 + nnn.toNat :=
  append_toNat g nnn

theorem wordXK_toNat (g : BitVec 4) (x : Reg) (kk : Byte) :
    (wordXK g x kk).toNat = g.toNat * 4096 + x.val * 256 + kk.toNat := by
  have h1 : (wordXK g x kk).toNat = (g ++ nibble x).toNat * 2 ^ 8 + kk.toNat := append_toNat _ kk
  have h2 := append_toNat g (nibble x)
  rw [h1, h2, nibble_toNat]
  omega

theorem wordXY_toNat (g : BitVec 4) (x y : Reg) (s : BitVec 4) :
    (wordXY g x y s).toNat = g.toNat * 4096 + x.val * 256 + y.val * 16 + s.toNat := by
  have h1 : (wordXY g x y s).toNat = (g ++ nibble x ++ nibble y).toNat * 2 ^ 4 + s.toNat := append_toNat _ s
  have h2 : (g ++ nibble x ++ nibble y).toNat = (g ++ nibble x).toNat * 2 ^ 4 + (nibble y).toNat := append_toNat _ _
  have h3 := append_toNat g (nibble x)
  rw [h1, h2, h3, nibble_toNat, nibble_toNat]
  omega

/-! ## The fields of a format's word -/

section
variable (g : BitVec 4) (nnn : Addr12) (x y : Reg) (kk : Byte) (s : BitVec 4)

@[simp] theorem fieldGroup_wordN : fieldGroup (wordN g nnn) = g := by
  have := nnn.isLt
  exact BitVec.eq_of_toNat_eq (by rw [fieldGroup_toNat, wordN_toNat]; omega)

@[simp] theorem fieldNnn_wordN : fieldNnn (wordN g nnn) = nnn := by
  have := nnn.isLt
  exact BitVec.eq_of_toNat_eq (by rw [fieldNnn_toNat, wordN_toNat]; omega)

@[simp] theorem fieldGroup_wordXK : fieldGroup (wordXK g x kk) = g := by
  have := kk.isLt
  exact BitVec.eq_of_toNat_eq (by rw [fieldGroup_toNat, wordXK_toNat]; omega)

@[simp] theorem fieldX_wordXK : fieldX (wordXK g x kk) = x := by
  have := kk.isLt
  exact Fin.ext (by rw [fieldX_val, wordXK_toNat]; omega)

@[simp] theorem fieldKk_wordXK : fieldKk (wordXK g x kk) = kk := by
  have := kk.isLt
  exact BitVec.eq_of_toNat_eq (by rw [fieldKk_toNat, wordXK_toNat]; omega)

@[simp] theorem fieldGroup_wordXY : fieldGroup (wordXY g x y s) = g := by
  have := s.isLt
  exact BitVec.eq_of_toNat_eq (by rw [fieldGroup_toNat, wordXY_toNat]; omega)

@[simp] theorem fieldX_wordXY : fieldX (wordXY g x y s) = x := by
  have := s.isLt
  exact Fin.ext (by rw [fieldX_val, wordXY_toNat]; omega)

@[simp] theorem fieldY_wordXY : fieldY (wordXY g x y s) = y := by
  have := s.isLt
  exact Fin.ext (by rw [fieldY_val, wordXY_toNat]; omega)

@[simp] theorem fieldS_wordXY : fieldS (wordXY g x y s) = s := by
  have := s.isLt
  exact BitVec.eq_of_toNat_eq (by rw [fieldS_toNat, wordXY_toNat]; omega)

@[simp] theorem fieldN_wordXY (n : RowCount) : fieldN (wordXY g x y (nibble n)) = n :=
  Fin.ext (by rw [fieldN_val, wordXY_toNat, nibble_toNat]; omega)

/-! ## The fixed bits of a format's word -/

theorem wordN_and : wordN g nnn &&& 0xF000 = wordN g 0 := by
  have h : wordN g nnn &&& wordN 0xF 0 = (g &&& 0xF) ++ (nnn &&& 0) := BitVec.and_append
  have hg : g &&& 0xF = g := BitVec.and_allOnes
  have hn : nnn &&& 0 = 0 := BitVec.and_zero
  rw [hg, hn] at h
  exact h

theorem wordXK_and_group : wordXK g x kk &&& 0xF000 = wordN g 0 := by
  have h : wordXK g x kk &&& wordXK 0xF 0 0 = ((g ++ nibble x) &&& (0xF#4 ++ nibble 0)) ++ (kk &&& 0) := BitVec.and_append
  have h' : (g ++ nibble x) &&& (0xF#4 ++ nibble 0) = (g &&& 0xF) ++ (nibble x &&& 0) := BitVec.and_append
  have hg : g &&& 0xF = g := BitVec.and_allOnes
  have hx : nibble x &&& 0 = 0 := BitVec.and_zero
  have hk : kk &&& 0 = 0 := BitVec.and_zero
  rw [h', hg, hx, hk] at h
  exact h.trans (BitVec.eq_of_toNat_eq (by
    rw [append_toNat, append_toNat, wordN_toNat]; simp; omega))

theorem wordXK_and_selector : wordXK g x kk &&& 0xF0FF = wordXK g 0 kk := by
  have h : wordXK g x kk &&& wordXK 0xF 0 0xFF = ((g ++ nibble x) &&& (0xF#4 ++ nibble 0)) ++ (kk &&& 0xFF) :=
    BitVec.and_append
  have h' : (g ++ nibble x) &&& (0xF#4 ++ nibble 0) = (g &&& 0xF) ++ (nibble x &&& 0) := BitVec.and_append
  have hg : g &&& 0xF = g := BitVec.and_allOnes
  have hx : nibble x &&& 0 = 0 := BitVec.and_zero
  have hk : kk &&& 0xFF = kk := BitVec.and_allOnes
  rw [h', hg, hx, hk] at h
  exact h

theorem wordXY_and_selector : wordXY g x y s &&& 0xF00F = wordXY g 0 0 s := by
  have h : wordXY g x y s &&& wordXY 0xF 0 0 0xF =
      ((g ++ nibble x ++ nibble y) &&& (0xF#4 ++ nibble 0 ++ nibble 0)) ++ (s &&& 0xF) := BitVec.and_append
  have h1 : (g ++ nibble x ++ nibble y) &&& (0xF#4 ++ nibble 0 ++ nibble 0) =
      ((g ++ nibble x) &&& (0xF#4 ++ nibble 0)) ++ (nibble y &&& 0) := BitVec.and_append
  have h2 : (g ++ nibble x) &&& (0xF#4 ++ nibble 0) = (g &&& 0xF) ++ (nibble x &&& 0) := BitVec.and_append
  have hg : g &&& 0xF = g := BitVec.and_allOnes
  have hx : nibble x &&& 0 = 0 := BitVec.and_zero
  have hy : nibble y &&& 0 = 0 := BitVec.and_zero
  have hs : s &&& 0xF = s := BitVec.and_allOnes
  rw [h1, h2, hg, hx, hy, hs] at h
  exact h

theorem wordXY_and_group : wordXY g x y s &&& 0xF000 = wordN g 0 := by
  have h : wordXY g x y s &&& wordXY 0xF 0 0 0 =
      ((g ++ nibble x ++ nibble y) &&& (0xF#4 ++ nibble 0 ++ nibble 0)) ++ (s &&& 0) := BitVec.and_append
  have h1 : (g ++ nibble x ++ nibble y) &&& (0xF#4 ++ nibble 0 ++ nibble 0) =
      ((g ++ nibble x) &&& (0xF#4 ++ nibble 0)) ++ (nibble y &&& 0) := BitVec.and_append
  have h2 : (g ++ nibble x) &&& (0xF#4 ++ nibble 0) = (g &&& 0xF) ++ (nibble x &&& 0) := BitVec.and_append
  have hg : g &&& 0xF = g := BitVec.and_allOnes
  have hx : nibble x &&& 0 = 0 := BitVec.and_zero
  have hy : nibble y &&& 0 = 0 := BitVec.and_zero
  have hs : s &&& 0 = 0 := BitVec.and_zero
  rw [h1, h2, hg, hx, hy, hs] at h
  exact h.trans (BitVec.eq_of_toNat_eq (by
    rw [append_toNat, append_toNat, append_toNat, wordN_toNat]; simp; omega))

/-! ## A word from its fields, and its fields from its fixed bits -/

theorem wordN_of_fields (w : Word) : wordN (fieldGroup w) (fieldNnn w) = w :=
  BitVec.eq_of_toNat_eq (by rw [wordN_toNat, fieldGroup_toNat, fieldNnn_toNat]; omega)

theorem wordXK_of_fields (w : Word) : wordXK (fieldGroup w) (fieldX w) (fieldKk w) = w :=
  BitVec.eq_of_toNat_eq (by rw [wordXK_toNat, fieldGroup_toNat, fieldX_val, fieldKk_toNat]; omega)

theorem wordXY_of_fields (w : Word) : wordXY (fieldGroup w) (fieldX w) (fieldY w) (fieldS w) = w :=
  BitVec.eq_of_toNat_eq (by rw [wordXY_toNat, fieldGroup_toNat, fieldX_val, fieldY_val, fieldS_toNat]; omega)

theorem nibble_fieldN (w : Word) : nibble (fieldN w) = fieldS w :=
  BitVec.eq_of_toNat_eq (by rw [nibble_toNat, fieldN_val, fieldS_toNat])

theorem group_of_and {w : Word} (h : w &&& 0xF000 = wordN g 0) : fieldGroup w = g := by
  rw [← wordN_of_fields w, wordN_and] at h
  simpa using congrArg fieldGroup h

theorem group_kk_of_and {w : Word} (h : w &&& 0xF0FF = wordXK g 0 kk) : fieldGroup w = g ∧ fieldKk w = kk := by
  rw [← wordXK_of_fields w, wordXK_and_selector] at h
  exact ⟨by simpa using congrArg fieldGroup h, by simpa using congrArg fieldKk h⟩

theorem group_s_of_and {w : Word} (h : w &&& 0xF00F = wordXY g 0 0 s) : fieldGroup w = g ∧ fieldS w = s := by
  rw [← wordXY_of_fields w, wordXY_and_selector] at h
  exact ⟨by simpa using congrArg fieldGroup h, by simpa using congrArg fieldS h⟩

end

end Sys2Proof
end

