-- ==== Sys2Proof/Laws/Draw.lean ====
section
/-! SUPPORT. What a draw does under DRAW_EDGE = clip: the pixel law of the sprite drawer and of its collision detector
(40_display.md R142, R144, R145). -/

namespace Sys2Proof.Machine

/-- Toggling one pixel of the screen inverts it and no other. -/
theorem Framebuffer.pixel_toggle (fb : Framebuffer) {px py : Nat} (hx : px < 64) (hy : py < 32) (qx qy : Nat) :
    (fb.toggle px py).pixel qx qy = (fb.pixel qx qy ^^ (decide (qx = px) && decide (qy = py))) := by
  unfold Framebuffer.pixel Framebuffer.toggle
  rw [dif_pos hy]
  by_cases hq : qy < 32
  · rw [dif_pos hq, dif_pos hq]
    by_cases e : py = qy
    · subst e
      simp only [Vector.getElem_set_self, BitVec.getLsbD_xor, decide_true, Bool.and_true]
      congr 1
      by_cases e2 : qx = px
      · subst e2; simp [hx]
      · simp only [BitVec.getLsbD_shiftLeft, BitVec.getLsbD_one, e2, decide_false]
        by_cases h3 : qx < px
        · simp [h3]
        · have : qx - px ≠ 0 := by omega
          simp [this]
    · rw [Vector.getElem_set_ne _ _ e]
      simp [Ne.symm e]
  · rw [dif_neg hq, dif_neg hq]
    have : qy ≠ py := by omega
    simp [this]

/-- Every pixel of a cleared screen is off. -/
@[simp] theorem Framebuffer.pixel_clear (px py : Nat) : Framebuffer.clear.pixel px py = false := by
  unfold Framebuffer.pixel Framebuffer.clear
  split <;> simp

/-- Two framebuffers with the same pixels are equal. -/
theorem Framebuffer.ext_pixel {f g : Framebuffer} (h : ∀ px py, px < 64 → py < 32 → f.pixel px py = g.pixel px py) :
    f = g := by
  apply Vector.ext
  intro py hy
  apply BitVec.eq_of_getLsbD_eq
  intro px hx
  simpa [Framebuffer.pixel, hy] using h px py hx hy

namespace Canvas

/-- One set sprite bit: the pixel at its place is inverted if it lies on the screen, nothing else changes. -/
theorem drawPixel_clip (px py : Nat) (c : Canvas) (qx qy : Nat) (hqx : qx < 64) (hqy : qy < 32) :
    (c.drawPixel .clip px py).fb.pixel qx qy = (c.fb.pixel qx qy ^^ (decide (qx = px) && decide (qy = py))) := by
  unfold drawPixel
  by_cases h : px ≤ 63 ∧ py ≤ 31
  · simp only [h, and_self, if_true]
    exact Framebuffer.pixel_toggle c.fb (by omega) (by omega) qx qy
  · simp only [h, if_false]
    have : ¬(qx = px ∧ qy = py) := by omega
    by_cases h1 : qx = px <;> by_cases h2 : qy = py <;> simp_all

theorem drawPixel_clip_collided (px py : Nat) (c : Canvas) :
    (c.drawPixel .clip px py).collided = (c.collided || (decide (px < 64) && decide (py < 32) && c.fb.pixel px py)) := by
  unfold drawPixel
  by_cases h : px ≤ 63 ∧ py ≤ 31
  · have h1 : px < 64 := by omega
    have h2 : py < 32 := by omega
    simp [h, h1, h2]
  · simp only [h, if_false]
    have : ¬(px < 64 ∧ py < 32) := by omega
    by_cases h1 : px < 64 <;> by_cases h2 : py < 32 <;> simp_all

/-- The set bit of a sprite byte, drawn from column xs on, that falls on column qx. -/
def columnBit (xs : Nat) (byte : Byte) (left qx : Nat) : Bool :=
  decide (xs ≤ qx) && decide (qx < xs + 8) && decide (7 - (qx - xs) < left) && byte.getLsbD (7 - (qx - xs))

theorem columnBit_succ (xs : Nat) (byte : Byte) {left : Nat} (hl : left < 8) (qx : Nat) :
    columnBit xs byte (left + 1) qx =
      ((decide (qx = xs + (7 - left)) && byte.getLsbD left) || columnBit xs byte left qx) := by
  unfold columnBit
  by_cases h1 : xs ≤ qx ∧ qx < xs + 8
  · obtain ⟨h1, h2⟩ := h1
    by_cases h3 : qx = xs + (7 - left)
    · have h4 : 7 - (qx - xs) = left := by omega
      rw [h4, decide_eq_true h3]
      simp [h1, h2]
    · have h4 : (7 - (qx - xs) < left + 1) = (7 - (qx - xs) < left) := by apply propext; omega
      simp [h3, h4]
  · have h3 : qx ≠ xs + (7 - left) := by omega
    by_cases h4 : xs ≤ qx
    · have : ¬qx < xs + 8 := by omega
      simp [this, h3]
    · simp [h4, h3]

theorem columnBit_place (xs : Nat) (byte : Byte) {left : Nat} (hl : left < 8) :
    columnBit xs byte left (xs + (7 - left)) = false := by
  have h : 7 - (xs + (7 - left) - xs) = left := by omega
  simp only [columnBit, h]
  simp

/-- The columns of one row. -/
theorem drawColumns_clip (xs py : Nat) (byte : Byte) (qx qy : Nat) (hqx : qx < 64) (hqy : qy < 32) :
    ∀ (left : Nat) (c : Canvas), left ≤ 8 →
      (drawColumns .clip xs py byte left c).fb.pixel qx qy =
        (c.fb.pixel qx qy ^^ (decide (qy = py) && columnBit xs byte left qx))
  | 0, c, _ => by simp [drawColumns, columnBit]
  | left + 1, c, hl => by
    rw [drawColumns, drawColumns_clip xs py byte qx qy hqx hqy left _ (by omega),
      columnBit_succ xs byte (by omega)]
    by_cases hb : byte.getLsbD left = true
    · rw [if_pos hb, drawPixel_clip _ _ _ _ _ hqx hqy, hb, Bool.and_true]
      by_cases h1 : qx = xs + (7 - left)
      · subst h1
        rw [columnBit_place xs byte (by omega)]
        simp
      · simp [h1]
    · rw [if_neg hb]
      simp [hb]

theorem drawColumns_clip_collided (xs py : Nat) (byte : Byte) :
    ∀ (left : Nat) (c : Canvas), left ≤ 8 →
      ((drawColumns .clip xs py byte left c).collided = true ↔
        c.collided = true ∨ ∃ qx, qx < 64 ∧ py < 32 ∧ columnBit xs byte left qx = true ∧ c.fb.pixel qx py = true)
  | 0, c, _ => by simp [drawColumns, columnBit]
  | left + 1, c, hl => by
    rw [drawColumns, drawColumns_clip_collided xs py byte left _ (by omega)]
    by_cases hb : byte.getLsbD left = true
    · rw [if_pos hb, drawPixel_clip_collided]
      constructor
      · rintro (h | ⟨qx, h1, h2, h3, h4⟩)
        · simp only [Bool.or_eq_true, Bool.and_eq_true, decide_eq_true_eq] at h
          rcases h with h | ⟨⟨h1, h2⟩, h3⟩
          · exact Or.inl h
          · exact Or.inr ⟨_, h1, h2, by rw [columnBit_succ xs byte (by omega)]; simp [hb], h3⟩
        · rw [drawPixel_clip _ _ _ _ _ h1 h2] at h4
          have hne : qx ≠ xs + (7 - left) := by
            rintro rfl
            rw [columnBit_place xs byte (by omega)] at h3
            cases h3
          simp only [hne, decide_false, Bool.false_and, Bool.xor_false] at h4
          exact Or.inr ⟨qx, h1, h2, by rw [columnBit_succ xs byte (by omega), h3]; simp, h4⟩
      · rintro (h | ⟨qx, h1, h2, h3, h4⟩)
        · left; simp [h]
        · by_cases hq : qx = xs + (7 - left)
          · left
            rw [← hq]
            simp [h1, h2, h4]
          · right
            refine ⟨qx, h1, h2, ?_, ?_⟩
            · simpa [columnBit_succ xs byte (show left < 8 by omega), hq] using h3
            · rw [drawPixel_clip _ _ _ _ _ h1 h2]
              simp [hq, h4]
    · have : ∀ qx, columnBit xs byte (left + 1) qx = columnBit xs byte left qx := fun qx => by
        rw [columnBit_succ xs byte (by omega)]; simp [hb]
      rw [if_neg hb]
      simp [this]

/-- The set bit of a sprite's rows, drawn at column xs and row ys, that falls on column qx and row qy. -/
def rowsBit (xs ys : Nat) (rows : List Byte) (qx qy : Nat) : Bool :=
  decide (ys ≤ qy) && columnBit xs (rows.getD (qy - ys) 0) 8 qx

theorem rowsBit_cons (xs ys : Nat) (byte : Byte) (rest : List Byte) (qx qy : Nat) :
    rowsBit xs ys (byte :: rest) qx qy =
      ((decide (qy = ys) && columnBit xs byte 8 qx) || rowsBit xs (ys + 1) rest qx qy) := by
  unfold rowsBit
  rcases Nat.lt_trichotomy qy ys with h | h | h
  · have h1 : ¬ys ≤ qy := by omega
    have h2 : ¬ys + 1 ≤ qy := by omega
    have h3 : qy ≠ ys := by omega
    simp [h1, h2, h3]
  · subst h; simp
  · have h1 : ys ≤ qy := by omega
    have h2 : ys + 1 ≤ qy := by omega
    have h3 : qy ≠ ys := by omega
    have h4 : qy - ys = (qy - (ys + 1)) + 1 := by omega
    simp [h1, h2, h3, h4]

theorem rowsBit_above (xs ys : Nat) (rows : List Byte) (qx qy : Nat) (h : qy < ys) :
    rowsBit xs ys rows qx qy = false := by
  have : ¬ys ≤ qy := by omega
  simp [rowsBit, this]

/-- The pixel law of the drawer: a pixel of the screen is inverted exactly where a set sprite bit falls. -/
theorem drawRows_clip (xs qx qy : Nat) (hqx : qx < 64) (hqy : qy < 32) :
    ∀ (rows : List Byte) (ys : Nat) (c : Canvas),
      (drawRows .clip xs ys rows c).fb.pixel qx qy = (c.fb.pixel qx qy ^^ rowsBit xs ys rows qx qy)
  | [], ys, c => by simp [drawRows, rowsBit, columnBit]
  | byte :: rest, ys, c => by
    rw [drawRows, drawRows_clip xs qx qy hqx hqy rest (ys + 1), drawRow,
      drawColumns_clip _ _ _ _ _ hqx hqy _ _ (Nat.le_refl 8), rowsBit_cons]
    by_cases h : qy = ys
    · subst h; simp [rowsBit_above]
    · simp [h]

/-- The law of the collision detector: it reports exactly that a set sprite bit fell on a pixel of the screen that was
on. -/
theorem drawRows_clip_collided (xs : Nat) :
    ∀ (rows : List Byte) (ys : Nat) (c : Canvas),
      ((drawRows .clip xs ys rows c).collided = true ↔
        c.collided = true ∨
          ∃ qx qy, qx < 64 ∧ qy < 32 ∧ rowsBit xs ys rows qx qy = true ∧ c.fb.pixel qx qy = true)
  | [], ys, c => by simp [drawRows, rowsBit, columnBit]
  | byte :: rest, ys, c => by
    rw [drawRows, drawRows_clip_collided xs rest (ys + 1), drawRow, drawColumns_clip_collided _ _ _ _ _ (Nat.le_refl 8)]
    constructor
    · rintro ((h | ⟨qx, h1, h2, h3, h4⟩) | ⟨qx, qy, h1, h2, h3, h4⟩)
      · exact Or.inl h
      · exact Or.inr ⟨qx, ys, h1, h2, by simp [rowsBit_cons, h3], h4⟩
      · have hne : qy ≠ ys := by
          rintro rfl
          rw [rowsBit_above _ _ _ _ _ (Nat.lt_succ_self _)] at h3
          cases h3
        rw [drawColumns_clip _ _ _ _ _ h1 h2 _ _ (Nat.le_refl 8)] at h4
        exact Or.inr ⟨qx, qy, h1, h2, by simp [rowsBit_cons, h3], by simpa [hne] using h4⟩
    · rintro (h | ⟨qx, qy, h1, h2, h3, h4⟩)
      · exact Or.inl (Or.inl h)
      · by_cases hq : qy = ys
        · subst hq
          rw [rowsBit_cons, rowsBit_above _ _ _ _ _ (Nat.lt_succ_self _)] at h3
          exact Or.inl (Or.inr ⟨qx, h1, h2, by simpa using h3, h4⟩)
        · refine Or.inr ⟨qx, qy, h1, h2, by simpa [rowsBit_cons, hq] using h3, ?_⟩
          rw [drawColumns_clip _ _ _ _ _ h1 h2 _ _ (Nat.le_refl 8)]
          simp [hq, h4]

end Canvas

end Sys2Proof.Machine
end

