-- ==== Sys2Proof/Laws/State.lean ====
section
/-! SUPPORT. The small lemmas of the state's updates: one per field per update, true by rfl, so that no proof unfolds a
record update; then what each update does to its own field. -/

namespace Sys2Proof.Machine.State

/-! ### setV -/

@[simp] theorem setV_i (s : State) (r : Reg) (byte : Byte) : (s.setV r byte).i = s.i := rfl
@[simp] theorem setV_pc (s : State) (r : Reg) (byte : Byte) : (s.setV r byte).pc = s.pc := rfl
@[simp] theorem setV_stack (s : State) (r : Reg) (byte : Byte) : (s.setV r byte).stack = s.stack := rfl
@[simp] theorem setV_sp (s : State) (r : Reg) (byte : Byte) : (s.setV r byte).sp = s.sp := rfl
@[simp] theorem setV_dt (s : State) (r : Reg) (byte : Byte) : (s.setV r byte).dt = s.dt := rfl
@[simp] theorem setV_st (s : State) (r : Reg) (byte : Byte) : (s.setV r byte).st = s.st := rfl
@[simp] theorem setV_keys (s : State) (r : Reg) (byte : Byte) : (s.setV r byte).keys = s.keys := rfl
@[simp] theorem setV_fb (s : State) (r : Reg) (byte : Byte) : (s.setV r byte).fb = s.fb := rfl
@[simp] theorem setV_mem (s : State) (r : Reg) (byte : Byte) : (s.setV r byte).mem = s.mem := rfl
@[simp] theorem setV_rng (s : State) (r : Reg) (byte : Byte) : (s.setV r byte).rng = s.rng := rfl
@[simp] theorem setV_fault (s : State) (r : Reg) (byte : Byte) : (s.setV r byte).fault = s.fault := rfl
@[simp] theorem setV_requests (s : State) (r : Reg) (byte : Byte) : (s.setV r byte).requests = s.requests := rfl
@[simp] theorem setV_response (s : State) (r : Reg) (byte : Byte) : (s.setV r byte).response = s.response := rfl

/-! ### setPc -/

@[simp] theorem setPc_v (s : State) (target : Word) : (s.setPc target).v = s.v := rfl
@[simp] theorem setPc_i (s : State) (target : Word) : (s.setPc target).i = s.i := rfl
@[simp] theorem setPc_stack (s : State) (target : Word) : (s.setPc target).stack = s.stack := rfl
@[simp] theorem setPc_sp (s : State) (target : Word) : (s.setPc target).sp = s.sp := rfl
@[simp] theorem setPc_dt (s : State) (target : Word) : (s.setPc target).dt = s.dt := rfl
@[simp] theorem setPc_st (s : State) (target : Word) : (s.setPc target).st = s.st := rfl
@[simp] theorem setPc_keys (s : State) (target : Word) : (s.setPc target).keys = s.keys := rfl
@[simp] theorem setPc_fb (s : State) (target : Word) : (s.setPc target).fb = s.fb := rfl
@[simp] theorem setPc_mem (s : State) (target : Word) : (s.setPc target).mem = s.mem := rfl
@[simp] theorem setPc_rng (s : State) (target : Word) : (s.setPc target).rng = s.rng := rfl
@[simp] theorem setPc_fault (s : State) (target : Word) : (s.setPc target).fault = s.fault := rfl
@[simp] theorem setPc_requests (s : State) (target : Word) : (s.setPc target).requests = s.requests := rfl
@[simp] theorem setPc_response (s : State) (target : Word) : (s.setPc target).response = s.response := rfl

/-! ### setI -/

@[simp] theorem setI_v (s : State) (value : Word) : (s.setI value).v = s.v := rfl
@[simp] theorem setI_pc (s : State) (value : Word) : (s.setI value).pc = s.pc := rfl
@[simp] theorem setI_stack (s : State) (value : Word) : (s.setI value).stack = s.stack := rfl
@[simp] theorem setI_sp (s : State) (value : Word) : (s.setI value).sp = s.sp := rfl
@[simp] theorem setI_dt (s : State) (value : Word) : (s.setI value).dt = s.dt := rfl
@[simp] theorem setI_st (s : State) (value : Word) : (s.setI value).st = s.st := rfl
@[simp] theorem setI_keys (s : State) (value : Word) : (s.setI value).keys = s.keys := rfl
@[simp] theorem setI_fb (s : State) (value : Word) : (s.setI value).fb = s.fb := rfl
@[simp] theorem setI_mem (s : State) (value : Word) : (s.setI value).mem = s.mem := rfl
@[simp] theorem setI_rng (s : State) (value : Word) : (s.setI value).rng = s.rng := rfl
@[simp] theorem setI_fault (s : State) (value : Word) : (s.setI value).fault = s.fault := rfl
@[simp] theorem setI_requests (s : State) (value : Word) : (s.setI value).requests = s.requests := rfl
@[simp] theorem setI_response (s : State) (value : Word) : (s.setI value).response = s.response := rfl

/-! ### advance -/

@[simp] theorem advance_v (s : State) : (s.advance).v = s.v := rfl
@[simp] theorem advance_i (s : State) : (s.advance).i = s.i := rfl
@[simp] theorem advance_stack (s : State) : (s.advance).stack = s.stack := rfl
@[simp] theorem advance_sp (s : State) : (s.advance).sp = s.sp := rfl
@[simp] theorem advance_dt (s : State) : (s.advance).dt = s.dt := rfl
@[simp] theorem advance_st (s : State) : (s.advance).st = s.st := rfl
@[simp] theorem advance_keys (s : State) : (s.advance).keys = s.keys := rfl
@[simp] theorem advance_fb (s : State) : (s.advance).fb = s.fb := rfl
@[simp] theorem advance_mem (s : State) : (s.advance).mem = s.mem := rfl
@[simp] theorem advance_rng (s : State) : (s.advance).rng = s.rng := rfl
@[simp] theorem advance_fault (s : State) : (s.advance).fault = s.fault := rfl
@[simp] theorem advance_requests (s : State) : (s.advance).requests = s.requests := rfl
@[simp] theorem advance_response (s : State) : (s.advance).response = s.response := rfl

/-! ### takeFault -/

@[simp] theorem takeFault_v (s : State) (kind : FaultKind) (opcode address : Word) : (s.takeFault kind opcode address).v = s.v := rfl
@[simp] theorem takeFault_i (s : State) (kind : FaultKind) (opcode address : Word) : (s.takeFault kind opcode address).i = s.i := rfl
@[simp] theorem takeFault_pc (s : State) (kind : FaultKind) (opcode address : Word) : (s.takeFault kind opcode address).pc = s.pc := rfl
@[simp] theorem takeFault_stack (s : State) (kind : FaultKind) (opcode address : Word) : (s.takeFault kind opcode address).stack = s.stack := rfl
@[simp] theorem takeFault_sp (s : State) (kind : FaultKind) (opcode address : Word) : (s.takeFault kind opcode address).sp = s.sp := rfl
@[simp] theorem takeFault_dt (s : State) (kind : FaultKind) (opcode address : Word) : (s.takeFault kind opcode address).dt = s.dt := rfl
@[simp] theorem takeFault_st (s : State) (kind : FaultKind) (opcode address : Word) : (s.takeFault kind opcode address).st = s.st := rfl
@[simp] theorem takeFault_keys (s : State) (kind : FaultKind) (opcode address : Word) : (s.takeFault kind opcode address).keys = s.keys := rfl
@[simp] theorem takeFault_fb (s : State) (kind : FaultKind) (opcode address : Word) : (s.takeFault kind opcode address).fb = s.fb := rfl
@[simp] theorem takeFault_mem (s : State) (kind : FaultKind) (opcode address : Word) : (s.takeFault kind opcode address).mem = s.mem := rfl
@[simp] theorem takeFault_rng (s : State) (kind : FaultKind) (opcode address : Word) : (s.takeFault kind opcode address).rng = s.rng := rfl
@[simp] theorem takeFault_requests (s : State) (kind : FaultKind) (opcode address : Word) : (s.takeFault kind opcode address).requests = s.requests := rfl
@[simp] theorem takeFault_response (s : State) (kind : FaultKind) (opcode address : Word) : (s.takeFault kind opcode address).response = s.response := rfl

/-! ### respond -/

@[simp] theorem respond_v (s : State) (r : Response) : (s.respond r).v = s.v := rfl
@[simp] theorem respond_i (s : State) (r : Response) : (s.respond r).i = s.i := rfl
@[simp] theorem respond_pc (s : State) (r : Response) : (s.respond r).pc = s.pc := rfl
@[simp] theorem respond_stack (s : State) (r : Response) : (s.respond r).stack = s.stack := rfl
@[simp] theorem respond_sp (s : State) (r : Response) : (s.respond r).sp = s.sp := rfl
@[simp] theorem respond_dt (s : State) (r : Response) : (s.respond r).dt = s.dt := rfl
@[simp] theorem respond_st (s : State) (r : Response) : (s.respond r).st = s.st := rfl
@[simp] theorem respond_keys (s : State) (r : Response) : (s.respond r).keys = s.keys := rfl
@[simp] theorem respond_fb (s : State) (r : Response) : (s.respond r).fb = s.fb := rfl
@[simp] theorem respond_mem (s : State) (r : Response) : (s.respond r).mem = s.mem := rfl
@[simp] theorem respond_rng (s : State) (r : Response) : (s.respond r).rng = s.rng := rfl
@[simp] theorem respond_fault (s : State) (r : Response) : (s.respond r).fault = s.fault := rfl
@[simp] theorem respond_requests (s : State) (r : Response) : (s.respond r).requests = s.requests := rfl

/-! ### The field an update writes -/

@[simp] theorem setV_v (s : State) (r : Reg) (byte : Byte) : (s.setV r byte).v = s.v.set r.val byte r.isLt := rfl
@[simp] theorem setPc_pc (s : State) (target : Word) : (s.setPc target).pc = target := rfl
@[simp] theorem setI_i (s : State) (value : Word) : (s.setI value).i = value := rfl
@[simp] theorem advance_pc (s : State) : s.advance.pc = s.pc + 2 := rfl
@[simp] theorem takeFault_fault (s : State) (kind : FaultKind) (opcode address : Word) :
    (s.takeFault kind opcode address).fault = { kind := kind, opcode := opcode, pc := address } := rfl
@[simp] theorem respond_response (s : State) (r : Response) : (s.respond r).response = r := rfl

/-- Reading a register after a write of it gives the byte written. -/
@[simp] theorem getV_setV_same (s : State) (r : Reg) (byte : Byte) : (s.setV r byte).getV r = byte := by
  simp [getV]

/-- A write of one register leaves every other alone. -/
theorem getV_setV_of_ne (s : State) {r q : Reg} (byte : Byte) (h : q ≠ r) : (s.setV r byte).getV q = s.getV q := by
  have h' : r.val ≠ q.val := fun e => h (Fin.ext e.symm)
  simp [getV, h']

/-- Reading any register after a write of one. -/
theorem getV_setV (s : State) (r q : Reg) (byte : Byte) : (s.setV r byte).getV q = if q = r then byte else s.getV q := by
  by_cases h : q = r
  · subst h; simp
  · simpa [h] using getV_setV_of_ne s byte h

/-- Registers are read from v alone. -/
theorem getV_congr {s t : State} (h : t.v = s.v) (q : Reg) : t.getV q = s.getV q := by
  unfold getV
  simp only [h]

@[simp] theorem getV_setPc (s : State) (target : Word) (q : Reg) : (s.setPc target).getV q = s.getV q := rfl
@[simp] theorem getV_setI (s : State) (value : Word) (q : Reg) : (s.setI value).getV q = s.getV q := rfl
@[simp] theorem getV_advance (s : State) (q : Reg) : s.advance.getV q = s.getV q := rfl
@[simp] theorem getV_takeFault (s : State) (kind : FaultKind) (opcode address : Word) (q : Reg) :
    (s.takeFault kind opcode address).getV q = s.getV q := rfl
@[simp] theorem getV_respond (s : State) (r : Response) (q : Reg) : (s.respond r).getV q = s.getV q := rfl

/-- A skip moves pc by 2 or not at all. -/
@[simp] theorem skipIf_pc (s : State) (c : Bool) : (s.skipIf c).pc = if c then s.pc + 2 else s.pc := by
  cases c <;> rfl

/-- A skip changes nothing but pc. -/
theorem skipIf_eq (s : State) (c : Bool) : s.skipIf c = { s with pc := (s.skipIf c).pc } := by
  cases c <;> rfl

end Sys2Proof.Machine.State
end

