-- ==== Sys2Proof/Laws/Memory.lean ====
section
/-! SUPPORT. Laws of memory: a read after a write, the canonical form, and what the byte sequences do (20_memory.md). -/

namespace Sys2Proof.Machine.Memory

/-! ## One byte -/

theorem lookup_of_lt_wfFrom : ∀ (m : Memory) (lo a : Nat), wfFrom lo m = true → a < lo → lookup m a = unlisted a
  | [], _, _, _, _ => rfl
  | (b, w) :: rest, lo, a, h, hlt => by
    simp only [wfFrom, Bool.and_eq_true, decide_eq_true_eq] at h
    have hne : b ≠ a := by omega
    simp only [lookup, hne, if_false]
    exact lookup_of_lt_wfFrom rest (b + 1) a h.2 (by omega)

theorem wfFrom_mono : ∀ (m : Memory) {lo lo' : Nat}, lo' ≤ lo → wfFrom lo m = true → wfFrom lo' m = true
  | [], _, _, _, _ => rfl
  | (b, w) :: rest, lo, lo', hle, h => by
    simp only [wfFrom, Bool.and_eq_true, decide_eq_true_eq] at h ⊢
    exact ⟨⟨⟨by omega, h.1.1.2⟩, h.1.2⟩, h.2⟩

theorem lookup_cell_append (a : Nat) (byte : Byte) (rest : Memory) (c : Nat) (h : lookup rest a = unlisted a) :
    lookup (cell a byte ++ rest) c = if c = a then byte else lookup rest c := by
  unfold cell
  split
  · by_cases hc : c = a <;> simp_all
  · by_cases hc : c = a
    · simp [lookup, hc]
    · simp [lookup, Ne.symm hc, hc]

/-- Reading a byte after a store: the byte stored at its address, the old byte everywhere else. -/
theorem lookup_store : ∀ (m : Memory) (lo a : Nat) (byte : Byte) (c : Nat), wfFrom lo m = true →
    lookup (store m a byte) c = if c = a then byte else lookup m c
  | [], _, a, byte, c, _ => by
    have := lookup_cell_append a byte [] c rfl
    simpa [store] using this
  | (b, w) :: rest, lo, a, byte, c, h => by
    have h' := h
    simp only [wfFrom, Bool.and_eq_true, decide_eq_true_eq] at h
    unfold store
    split
    · refine lookup_cell_append a byte ((b, w) :: rest) c ?_
      exact lookup_of_lt_wfFrom _ b a (by simp [wfFrom, h.1.1.2, h.1.2, h.2]) (by omega)
    · split
      · next hab =>
        subst hab
        rw [lookup_cell_append a byte rest c (lookup_of_lt_wfFrom rest (a + 1) a h.2 (by omega))]
        by_cases hc : c = a
        · simp [hc]
        · simp [lookup, hc, Ne.symm hc]
      · next hab =>
        have ih := lookup_store rest (b + 1) a byte c h.2
        by_cases hc : b = c
        · subst hc; simp [lookup, Ne.symm hab]
        · simp [lookup, hc, ih]

theorem wfFrom_cell_append (a lo : Nat) (byte : Byte) (rest : Memory) (hlo : lo ≤ a) (ha : a < 4096)
    (h : wfFrom (a + 1) rest = true) : wfFrom lo (cell a byte ++ rest) = true := by
  unfold cell
  split
  · exact wfFrom_mono rest (by omega) h
  · simp_all [wfFrom]

/-- A store keeps the canonical form. -/
theorem wfFrom_store : ∀ (m : Memory) (lo a : Nat) (byte : Byte), wfFrom lo m = true → lo ≤ a → a < 4096 →
    wfFrom lo (store m a byte) = true
  | [], lo, a, byte, _, hlo, ha => by
    have := wfFrom_cell_append a lo byte [] hlo ha rfl
    simpa [store] using this
  | (b, w) :: rest, lo, a, byte, h, hlo, ha => by
    have h' := h
    simp only [wfFrom, Bool.and_eq_true, decide_eq_true_eq] at h
    unfold store
    split
    · refine wfFrom_cell_append a lo byte _ hlo ha ?_
      simp only [wfFrom, Bool.and_eq_true, decide_eq_true_eq]
      exact ⟨⟨⟨by omega, h.1.1.2⟩, h.1.2⟩, h.2⟩
    · split
      · next hab =>
        subst hab
        exact wfFrom_cell_append a lo byte _ hlo ha h.2
      · simp only [wfFrom, Bool.and_eq_true, decide_eq_true_eq]
        exact ⟨h.1, wfFrom_store rest (b + 1) a byte h.2 (by omega) ha⟩

/-- A store to an address of the machine keeps the canonical form. -/
theorem wf_store {m : Memory} (h : m.wf = true) {a : Nat} (ha : a < 4096) (byte : Byte) : (store m a byte).wf = true :=
  wfFrom_store m 0 a byte h (Nat.zero_le a) ha

/-- A write that succeeds keeps the canonical form. -/
theorem wf_write {m m' : Memory} {a : Nat} {byte : Byte} (h : m.wf = true) (hw : write m a byte = some m') :
    m'.wf = true := by
  unfold write at hw
  split at hw
  · cases hw; exact wf_store h ‹_› byte
  · cases hw

/-- Memory right after Reset is canonical. -/
theorem wf_reset : State.reset.mem.wf = true := rfl

/-- A read succeeds exactly at the addresses 0x000 to 0xFFF. -/
theorem read_isSome (m : Memory) (a : Nat) : (read m a).isSome = true ↔ a < 4096 := by
  unfold read; split <;> simp_all

/-- Reading after a write: the byte written at its address, the old byte everywhere else. -/
theorem read_write {m m' : Memory} {a : Nat} {byte : Byte} (h : m.wf = true) (hw : write m a byte = some m') (c : Nat) :
    read m' c = if c = a then some byte else read m c := by
  unfold write at hw
  split at hw
  · next ha =>
    cases hw
    unfold read
    rw [lookup_store m 0 a byte c h]
    by_cases hc : c = a
    · subst hc; simp [ha]
    · simp [hc]
  · cases hw

/-! ## Several bytes -/

/-- What a sequence of reads answers: all the bytes, or nothing if one of them lies beyond memory. -/
theorem readBytes_eq (m : Memory) : ∀ (count a : Nat),
    readBytes m a count =
      if count = 0 ∨ a + count ≤ 4096 then some ((List.range count).map fun k => lookup m (a + k)) else none
  | 0, a => by simp [readBytes]
  | count + 1, a => by
    rw [readBytes, readBytes_eq m count (a + 1), read]
    by_cases h : a + (count + 1) ≤ 4096
    · have h1 : a < Config.memSize := by show a < 4096; omega
      have h2 : count = 0 ∨ a + 1 + count ≤ 4096 := by omega
      rw [if_pos h1, if_pos h2, if_pos (Or.inr h), List.range_succ_eq_map]
      simp [Function.comp_def, Nat.add_comm, Nat.add_left_comm]
    · by_cases h1 : a < Config.memSize
      · have h2 : ¬(count = 0 ∨ a + 1 + count ≤ 4096) := by
          have : a < 4096 := h1
          omega
        rw [if_pos h1, if_neg h2, if_neg (by omega)]
      · have h2 : ¬a < 4096 := h1
        rw [if_neg h1, if_neg (show ¬(count + 1 = 0 ∨ a + (count + 1) ≤ 4096) by omega)]

/-- A sequence of writes succeeds exactly when every byte lies in memory. -/
theorem writeBytes_isSome : ∀ (bytes : List Byte) (m : Memory) (a : Nat),
    (writeBytes m a bytes).isSome = true ↔ bytes = [] ∨ a + bytes.length ≤ 4096
  | [], m, a => by simp [writeBytes]
  | byte :: rest, m, a => by
    unfold writeBytes write
    by_cases h : a < Config.memSize
    · have h' : a < 4096 := h
      rw [if_pos h]
      simp only [writeBytes_isSome rest, List.length_cons, reduceCtorEq, false_or]
      constructor
      · rintro (rfl | hr)
        · simp; omega
        · omega
      · intro hr; right; omega
    · have h' : ¬a < 4096 := h
      rw [if_neg h]
      simp; omega

/-- What a sequence of writes leaves: memory in canonical form, each byte at its address, every other address as it
was. -/
theorem writeBytes_spec : ∀ (bytes : List Byte) (m m' : Memory) (a : Nat), m.wf = true →
    writeBytes m a bytes = some m' →
    m'.wf = true ∧ ∀ c, read m' c = if h : a ≤ c ∧ c < a + bytes.length then some (bytes[c - a]'(by omega)) else read m c
  | [], m, m', a, hm, h => by
    simp only [writeBytes, Option.some.injEq] at h
    subst h
    exact ⟨hm, fun c => by rw [dif_neg (by simp)]⟩
  | byte :: rest, m, m', a, hm, h => by
    unfold writeBytes at h
    split at h
    · next m1 hw =>
      obtain ⟨hwf, hr⟩ := writeBytes_spec rest m1 m' (a + 1) (wf_write hm hw) h
      refine ⟨hwf, fun c => ?_⟩
      rw [hr c]
      by_cases hc : a + 1 ≤ c ∧ c < a + 1 + rest.length
      · rw [dif_pos hc, dif_pos (by simp; omega)]
        have : c - a = (c - (a + 1)) + 1 := by omega
        simp [this]
      · rw [dif_neg hc, read_write hm hw c]
        by_cases hca : c = a
        · subst hca
          rw [if_pos rfl, dif_pos (by simp)]
          simp
        · rw [if_neg hca, dif_neg (by simp; omega)]
    · cases h

/-- A sequence of writes that succeeds keeps the canonical form. -/
theorem wf_writeBytes {m m' : Memory} {a : Nat} {bytes : List Byte} (h : m.wf = true)
    (hw : writeBytes m a bytes = some m') : m'.wf = true :=
  (writeBytes_spec bytes m m' a h hw).1

/-! ## The parameter FONT -/

/-- Memory after Reset under any FONT: canonical, the font's bytes at 0x050 to 0x09F and 0 elsewhere. -/
theorem ofFont_spec (font : Config.FontTable) :
    (ofFont font).wf = true ∧ ∀ a, a < 4096 → read (ofFont font) a = some (resetByte font a) := by
  have hs : (writeBytes [] Config.fontBase font.toList).isSome = true :=
    (writeBytes_isSome _ _ _).mpr (.inr (by rw [Vector.length_toList]; decide))
  obtain ⟨m, hm⟩ := Option.isSome_iff_exists.mp hs
  obtain ⟨hwf, hr⟩ := writeBytes_spec _ _ _ _ wf_reset hm
  have he : ofFont font = m := by rw [ofFont, hm, Option.getD_some]
  rw [he]
  refine ⟨hwf, fun a ha => ?_⟩
  rw [hr a, resetByte]
  by_cases hf : Config.fontBase ≤ a ∧ a < Config.fontBase + Config.fontLen
  · rw [dif_pos (by rw [Vector.length_toList]; exact hf), dif_pos hf, Vector.getElem_toList]
  · rw [dif_neg (by rw [Vector.length_toList]; exact hf), dif_neg hf, read, if_pos ha]
    show some (unlisted a) = _
    rw [unlisted, resetByte, dif_neg hf]

/-- Under the spec's FONT the memory after Reset lists nothing. -/
@[simp] theorem ofFont_font : ofFont Config.font = [] := by decide +kernel

/-- Reset under the spec's FONT leaves the state after reset. -/
@[simp] theorem resetWith_font : State.resetWith Config.font = State.reset := by rw [State.resetWith, ofFont_font]; rfl

/-- The Reset transaction's state under the spec's FONT: the state after reset, with the random source's count and the
host's queue kept. -/
theorem resetAll_font (s : State) :
    s.resetAll Config.font = { State.reset with rng := s.rng, requests := s.requests } := by
  rw [State.resetAll, resetWith_font]

end Sys2Proof.Machine.Memory
end

