-- ==== Sys2Proof/Laws/Ops.lean ====
section
/-! SUPPORT. What each shared operation can do, said once: the call stack, taking a fault, register ranges, operands,
fetch, flags (10_state.md, 30_encoding.md, 41_control_flow.md, 43_alu.md, 44_index_memory.md, 45_keypad.md). -/

namespace Sys2Proof.Machine

namespace State

/-! ## The call stack -/

/-- A push onto a stack that is not full. -/
theorem push_of_lt (s : State) (word : Word) (h : s.sp.val < 16) :
    s.push word =
      some { s with stack := s.stack.set s.sp.val word h, sp := ⟨s.sp.val + 1, Nat.succ_lt_succ h⟩ } := by
  simp [push, h]

/-- A push onto a full stack. -/
theorem push_of_full (s : State) (word : Word) (h : s.sp.val = 16) : s.push word = none := by
  simp [push, h]

/-- A pop from a stack that is not empty. -/
theorem pop_of_pos (s : State) (h : 0 < s.sp.val) (hlt : s.sp.val - 1 < 16) (hlt' : s.sp.val - 1 < 17) :
    s.pop = some (s.stack[s.sp.val - 1], { s with sp := ⟨s.sp.val - 1, hlt'⟩ }) := by
  simp [pop, h]

/-- A pop from an empty stack. -/
theorem pop_of_empty (s : State) (h : s.sp.val = 0) : s.pop = none := by
  simp [pop, h]

/-! ## Taking a fault -/

/-- Raising in an instruction's execution: a next state that differs in the fault record alone (R114). -/
theorem raise_eq (s : State) (kind : FaultKind) (i : Instr) :
    s.raise kind i = .next { s with fault := { kind := kind, opcode := encode i, pc := s.pc - 2 } } := rfl

/-! ## Register ranges -/

/-- What loading consecutive registers leaves: the bytes in order, every other register as it was. -/
theorem getV_setVs : ∀ (bytes : List Byte) (s : State) (r : Nat) (q : Reg),
    (s.setVs r bytes).getV q =
      if r ≤ q.val ∧ q.val < r + bytes.length then bytes.getD (q.val - r) 0 else s.getV q
  | [], s, r, q => by
    have : ¬(r ≤ q.val ∧ q.val < r + 0) := by omega
    simp only [setVs, List.length_nil, if_neg this]
  | byte :: rest, s, r, q => by
    unfold setVs
    by_cases h : r < 16
    · rw [dif_pos h, getV_setVs rest (s.setV ⟨r, h⟩ byte) (r + 1) q, getV_setV]
      by_cases hq : q = ⟨r, h⟩
      · subst hq
        have h1 : ¬(r + 1 ≤ r ∧ r < r + 1 + rest.length) := by omega
        simp [List.length_cons]
      · have hq' : q.val ≠ r := fun e => hq (Fin.ext e)
        by_cases h1 : r + 1 ≤ q.val ∧ q.val < r + 1 + rest.length
        · have h2 : r ≤ q.val ∧ q.val < r + (byte :: rest).length := by simp; omega
          have h3 : q.val - r = (q.val - (r + 1)) + 1 := by omega
          rw [if_pos h1, if_pos h2, h3]
          simp
        · have h2 : ¬(r ≤ q.val ∧ q.val < r + (byte :: rest).length) := by simp; omega
          rw [if_neg h1, if_neg h2, if_neg hq]
    · have h2 : ¬(r ≤ q.val ∧ q.val < r + (byte :: rest).length) := by have := q.isLt; omega
      rw [dif_neg h, if_neg h2]

/-- Loading consecutive registers changes nothing else. -/
theorem setVs_eq : ∀ (bytes : List Byte) (s : State) (r : Nat), s.setVs r bytes = { s with v := (s.setVs r bytes).v }
  | [], _, _ => rfl
  | byte :: rest, s, r => by
    unfold setVs
    by_cases h : r < 16
    · rw [dif_pos h]
      exact setVs_eq rest (s.setV ⟨r, h⟩ byte) (r + 1)
    · rw [dif_neg h]

/-- The contents of V0 to Vx, by position. -/
theorem regsUpTo_getElem (s : State) (x : Reg) (k : Nat) (h : k < (s.regsUpTo x).length) (hk : k < 16) :
    (s.regsUpTo x)[k] = s.getV ⟨k, hk⟩ := by
  have hall : ∀ (j : Nat) (hj : j < 16), allRegs[j]'(by simpa [allRegs] using hj) = (⟨j, hj⟩ : Reg) := by decide
  simp only [regsUpTo, List.getElem_map, List.getElem_take, hall k hk]

@[simp] theorem regsUpTo_length (s : State) (x : Reg) : (s.regsUpTo x).length = x.val + 1 := by
  have := x.isLt
  simp [regsUpTo, allRegs]
  omega

/-! ## Keys -/

/-- The lowest pressed key is pressed, and no lower one is. -/
theorem lowestKey_some {s : State} {k : Reg} (h : s.lowestKey = some k) :
    s.keys.getLsbD k.val = true ∧ ∀ j : Reg, j < k → s.keys.getLsbD j.val = false := by
  refine ⟨?_, ?_⟩
  · simpa using List.find?_some h
  · intro j hj
    obtain ⟨_, as, bs, hsplit, hno⟩ := List.find?_eq_some_iff_append.mp h
    have hmem : j ∈ as := by
      have hlen : as.length = k.val := by
        have hk : allRegs[as.length]? = some k := by rw [hsplit]; simp
        have hlt : as.length < 16 := by
          have : as.length < allRegs.length := by rw [hsplit]; simp
          simpa [allRegs] using this
        have hall : ∀ n : Fin 16, allRegs[n.val]? = some n := by decide
        have := hall ⟨as.length, hlt⟩
        simp only [hk, Option.some.injEq] at this
        rw [this]
      have hj' : j.val < as.length := by rw [hlen]; exact hj
      have hall : ∀ n : Fin 16, allRegs[n.val]? = some n := by decide
      have h1 : (as ++ k :: bs)[j.val]? = some j := by rw [← hsplit]; exact hall j
      rw [List.getElem?_append_left hj'] at h1
      exact List.mem_of_getElem? h1
    simpa using hno j hmem

/-- No lowest key exactly when no key is pressed. -/
theorem lowestKey_none {s : State} : s.lowestKey = none ↔ s.keys = 0 := by
  have hmem : ∀ k : Reg, k ∈ allRegs := by decide
  simp only [lowestKey, List.find?_eq_none]
  constructor
  · intro h
    apply BitVec.eq_of_getLsbD_eq
    intro k hk
    simpa using h ⟨k, hk⟩ (hmem _)
  · intro h k _
    simp [h]

/-! ## Fetch -/

/-- A fetch at pc <= 0xFFE. -/
theorem fetch_of_le (s : State) (h : s.pc.toNat ≤ 0xFFE) :
    s.fetch = some (joinBytes (Memory.lookup s.mem s.pc.toNat) (Memory.lookup s.mem (s.pc.toNat + 1))) := by
  have h1 : s.pc.toNat < Config.memSize := by show s.pc.toNat < 4096; omega
  have h2 : s.pc.toNat + 1 < Config.memSize := by show s.pc.toNat + 1 < 4096; omega
  simp [fetch, Memory.read, h1, h2]

/-- A fetch at pc >= 0xFFF reads nothing (R73). -/
theorem fetch_of_gt (s : State) (h : 0xFFF ≤ s.pc.toNat) : s.fetch = none := by
  have h2 : ¬s.pc.toNat + 1 < Config.memSize := by show ¬s.pc.toNat + 1 < 4096; omega
  unfold fetch Memory.read
  rw [if_neg h2]
  split <;> simp_all

end State

/-! ## Operands and flags -/

/-- The opcode of two bytes as a number, the byte at the lower address first (R74). -/
@[simp] theorem joinBytes_toNat (hi lo : Byte) : (joinBytes hi lo).toNat = hi.toNat * 256 + lo.toNat := by
  have h := lo.isLt
  unfold joinBytes
  rw [BitVec.toNat_append, ← Nat.shiftLeft_add_eq_or_of_lt h, Nat.shiftLeft_eq]

@[simp] theorem zext16_toNat (nnn : Addr12) : (zext16 nnn).toNat = nnn.toNat := by
  have := nnn.isLt
  simp [zext16]
  omega

@[simp] theorem indexedTarget_toNat (nnn : Addr12) (v0 : Byte) : (indexedTarget nnn v0).toNat = nnn.toNat + v0.toNat := by
  have := nnn.isLt
  have := v0.isLt
  simp [indexedTarget, BitVec.toNat_add]
  omega

@[simp] theorem glyphAddr_toNat (digit : Byte) : (glyphAddr digit).toNat = 0x050 + 5 * digit.toNat := by
  have := digit.isLt
  simp only [glyphAddr, Config.fontBase, BitVec.toNat_ofNat]
  omega

@[simp] theorem flagByte_toNat (b : Bool) : (flagByte b).toNat = if b then 1 else 0 := by
  cases b <;> rfl

/-- A flag byte is 1 exactly when the flag is set. -/
theorem flagByte_toNat_eq_one (b : Bool) : (flagByte b).toNat = 1 ↔ b = true := by
  cases b <;> simp [flagByte]

@[simp] theorem shiftOutLow_toNat (a : Byte) : (shiftOutLow a).toNat = a.toNat % 2 := by
  simp [shiftOutLow, Nat.and_one_is_mod]

@[simp] theorem shiftOutHigh_toNat (a : Byte) : (shiftOutHigh a).toNat = a.toNat / 128 := by
  simp [shiftOutHigh, Nat.shiftRight_eq_div_pow]

/-- Under the spec's setting every form has its meaning (R10, R210). -/
@[simp] theorem vfGate_exact (mnemonic : String) (b : Bool) (meaning : Answer) :
    vfGate Config.vfAlias mnemonic b meaning = meaning := rfl

end Sys2Proof.Machine
end

