-- ==== Sys2Proof/Laws/Frame.lean ====
section
/-! SUPPORT. Frames of the shared operations: what each leaves unchanged, said once. -/

namespace Sys2Proof.Machine

/-- A frame from its parts, one field each. -/
theorem Frame.intro {regs : List Reg} {parts : List Part} {s t : State}
    (hv : ∀ r, r ∉ regs → t.getV r = s.getV r)
    (hi : .index ∉ parts → t.i = s.i)
    (hst : .stack ∉ parts → t.stack = s.stack ∧ t.sp = s.sp)
    (hdt : .delayTimer ∉ parts → t.dt = s.dt)
    (hs : .soundTimer ∉ parts → t.st = s.st)
    (hk : .keypad ∉ parts → t.keys = s.keys)
    (hfb : .screen ∉ parts → t.fb = s.fb)
    (hm : .memory ∉ parts → ∀ a, Memory.read t.mem a = Memory.read s.mem a)
    (hr : .random ∉ parts → t.rng = s.rng)
    (hf : .fault ∉ parts → t.fault = s.fault)
    (hh : .host ∉ parts → t.requests = s.requests ∧ t.response = s.response) : Frame regs parts s t := by
  refine ⟨hv, fun p hp => ?_⟩
  cases p with
  | index => exact hi hp
  | stack => exact hst hp
  | delayTimer => exact hdt hp
  | soundTimer => exact hs hp
  | keypad => exact hk hp
  | screen => exact hfb hp
  | memory => exact hm hp
  | random => exact hr hp
  | fault => exact hf hp
  | host => exact hh hp

/-- A frame allows more writes. -/
theorem Frame.mono {regs regs' : List Reg} {parts parts' : List Part} {s t : State} (h : Frame regs parts s t)
    (hr : ∀ r, r ∈ regs → r ∈ regs') (hp : ∀ p, p ∈ parts → p ∈ parts') : Frame regs' parts' s t :=
  ⟨fun r h' => h.1 r fun hm => h' (hr r hm), fun p h' => h.2 p fun hm => h' (hp p hm)⟩

/-- A skip moves pc alone. -/
theorem State.skipIf_frame (s : State) (c : Bool) : Frame [] [] s (s.skipIf c) := by
  cases c <;> exact Frame.intro (fun _ _ => rfl) (fun _ => rfl) (fun _ => ⟨rfl, rfl⟩) (fun _ => rfl) (fun _ => rfl)
    (fun _ => rfl) (fun _ => rfl) (fun _ _ => rfl) (fun _ => rfl) (fun _ => rfl) (fun _ => ⟨rfl, rfl⟩)

/-- A register write changes that register alone. -/
theorem State.setV_frame (s : State) (x : Reg) (byte : Byte) : Frame [x] [] s (s.setV x byte) :=
  Frame.intro (fun _ h => State.getV_setV_of_ne s byte (by simpa using h)) (fun _ => rfl) (fun _ => ⟨rfl, rfl⟩)
    (fun _ => rfl) (fun _ => rfl) (fun _ => rfl) (fun _ => rfl) (fun _ _ => rfl) (fun _ => rfl) (fun _ => rfl)
    (fun _ => ⟨rfl, rfl⟩)

/-- Taking a fault changes the fault record alone. -/
theorem State.takeFault_frame (s : State) (kind : FaultKind) (opcode address : Word) :
    Frame [] [.fault] s (s.takeFault kind opcode address) :=
  Frame.intro (fun _ _ => rfl) (fun _ => rfl) (fun _ => ⟨rfl, rfl⟩) (fun _ => rfl) (fun _ => rfl) (fun _ => rfl)
    (fun _ => rfl) (fun _ _ => rfl) (fun _ => rfl) (fun h => absurd (List.mem_singleton.mpr rfl) h)
    (fun _ => ⟨rfl, rfl⟩)

/-- Frames compose. -/
theorem Frame.trans {regs : List Reg} {parts : List Part} {s t u : State} (h1 : Frame regs parts s t)
    (h2 : Frame regs parts t u) : Frame regs parts s u := by
  refine Frame.intro (fun r h => (h2.1 r h).trans (h1.1 r h)) (fun h => (h2.2 _ h).trans (h1.2 _ h))
    (fun h => ⟨(h2.2 _ h).1.trans (h1.2 _ h).1, (h2.2 _ h).2.trans (h1.2 _ h).2⟩)
    (fun h => (h2.2 _ h).trans (h1.2 _ h)) (fun h => (h2.2 _ h).trans (h1.2 _ h)) (fun h => (h2.2 _ h).trans (h1.2 _ h))
    (fun h => (h2.2 _ h).trans (h1.2 _ h)) (fun h a => (h2.2 _ h a).trans (h1.2 _ h a))
    (fun h => (h2.2 _ h).trans (h1.2 _ h)) (fun h => (h2.2 _ h).trans (h1.2 _ h))
    (fun h => ⟨(h2.2 _ h).1.trans (h1.2 _ h).1, (h2.2 _ h).2.trans (h1.2 _ h).2⟩)

end Sys2Proof.Machine
end

