-- ==== Sys2Proof/Laws/PerInstr.lean ====
section
/-! SUPPORT. Laws per instruction. Family `RowFits`: the instruction's word has the fixed bits of its row of the opcode map
(30_encoding.md R105). -/

namespace Sys2Proof.Laws.RowFits

/-- The word of the instruction fits the row of the opcode map that bears the instruction's name. -/
def Statement (i : Instr) : Prop :=
  ∃ r ∈ opcodeTable Config.strictDecode, r.name = i.mnemonic ∧ r.fits (encode i) = true

/-- A word fits a row where its fixed bits are the row's. -/
theorem fits_of_and {r : OpcodeRow} {w : Word} (h : w &&& r.mask = r.bits) : r.fits w = true := by
  simp [OpcodeRow.fits, h]

theorem cls : Statement .cls :=
  ⟨⟨"CLS", 0xFFFF, 0x00E0⟩, by decide, rfl, rfl⟩

theorem ret : Statement .ret :=
  ⟨⟨"RET", 0xFFFF, 0x00EE⟩, by decide, rfl, rfl⟩

theorem jp (nnn : Addr12) : Statement (.jp nnn) :=
  ⟨⟨"JP", 0xF000, 0x1000⟩, by decide, rfl, fits_of_and (wordN_and _ _)⟩

theorem call (nnn : Addr12) : Statement (.call nnn) :=
  ⟨⟨"CALL", 0xF000, 0x2000⟩, by decide, rfl, fits_of_and (wordN_and _ _)⟩

theorem seImm (x : Reg) (kk : Byte) : Statement (.seImm x kk) :=
  ⟨⟨"SE_IMM", 0xF000, 0x3000⟩, by decide, rfl, fits_of_and (wordXK_and_group _ _ _)⟩

theorem sneImm (x : Reg) (kk : Byte) : Statement (.sneImm x kk) :=
  ⟨⟨"SNE_IMM", 0xF000, 0x4000⟩, by decide, rfl, fits_of_and (wordXK_and_group _ _ _)⟩

theorem seReg (x y : Reg) : Statement (.seReg x y) :=
  ⟨⟨"SE_REG", 0xF00F, 0x5000⟩, by decide, rfl, fits_of_and (wordXY_and_selector _ _ _ _)⟩

theorem ldImm (x : Reg) (kk : Byte) : Statement (.ldImm x kk) :=
  ⟨⟨"LD_IMM", 0xF000, 0x6000⟩, by decide, rfl, fits_of_and (wordXK_and_group _ _ _)⟩

theorem addImm (x : Reg) (kk : Byte) : Statement (.addImm x kk) :=
  ⟨⟨"ADD_IMM", 0xF000, 0x7000⟩, by decide, rfl, fits_of_and (wordXK_and_group _ _ _)⟩

theorem ldReg (x y : Reg) : Statement (.ldReg x y) :=
  ⟨⟨"LD_REG", 0xF00F, 0x8000⟩, by decide, rfl, fits_of_and (wordXY_and_selector _ _ _ _)⟩

theorem orReg (x y : Reg) : Statement (.orReg x y) :=
  ⟨⟨"OR", 0xF00F, 0x8001⟩, by decide, rfl, fits_of_and (wordXY_and_selector _ _ _ _)⟩

theorem andReg (x y : Reg) : Statement (.andReg x y) :=
  ⟨⟨"AND", 0xF00F, 0x8002⟩, by decide, rfl, fits_of_and (wordXY_and_selector _ _ _ _)⟩

theorem xorReg (x y : Reg) : Statement (.xorReg x y) :=
  ⟨⟨"XOR", 0xF00F, 0x8003⟩, by decide, rfl, fits_of_and (wordXY_and_selector _ _ _ _)⟩

theorem addReg (x y : Reg) : Statement (.addReg x y) :=
  ⟨⟨"ADD_REG", 0xF00F, 0x8004⟩, by decide, rfl, fits_of_and (wordXY_and_selector _ _ _ _)⟩

theorem sub (x y : Reg) : Statement (.sub x y) :=
  ⟨⟨"SUB", 0xF00F, 0x8005⟩, by decide, rfl, fits_of_and (wordXY_and_selector _ _ _ _)⟩

theorem shr (x y : Reg) : Statement (.shr x y) :=
  ⟨⟨"SHR", 0xF00F, 0x8006⟩, by decide, rfl, fits_of_and (wordXY_and_selector _ _ _ _)⟩

theorem subn (x y : Reg) : Statement (.subn x y) :=
  ⟨⟨"SUBN", 0xF00F, 0x8007⟩, by decide, rfl, fits_of_and (wordXY_and_selector _ _ _ _)⟩

theorem shl (x y : Reg) : Statement (.shl x y) :=
  ⟨⟨"SHL", 0xF00F, 0x800E⟩, by decide, rfl, fits_of_and (wordXY_and_selector _ _ _ _)⟩

theorem sneReg (x y : Reg) : Statement (.sneReg x y) :=
  ⟨⟨"SNE_REG", 0xF00F, 0x9000⟩, by decide, rfl, fits_of_and (wordXY_and_selector _ _ _ _)⟩

theorem ldI (nnn : Addr12) : Statement (.ldI nnn) :=
  ⟨⟨"LD_I", 0xF000, 0xA000⟩, by decide, rfl, fits_of_and (wordN_and _ _)⟩

theorem jpV0 (nnn : Addr12) : Statement (.jpV0 nnn) :=
  ⟨⟨"JP_V0", 0xF000, 0xB000⟩, by decide, rfl, fits_of_and (wordN_and _ _)⟩

theorem rnd (x : Reg) (kk : Byte) : Statement (.rnd x kk) :=
  ⟨⟨"RND", 0xF000, 0xC000⟩, by decide, rfl, fits_of_and (wordXK_and_group _ _ _)⟩

theorem drw (x y : Reg) (n : RowCount) : Statement (.drw x y n) :=
  ⟨⟨"DRW", 0xF000, 0xD000⟩, by decide, rfl, fits_of_and (wordXY_and_group _ _ _ _)⟩

theorem skp (x : Reg) : Statement (.skp x) :=
  ⟨⟨"SKP", 0xF0FF, 0xE09E⟩, by decide, rfl, fits_of_and (wordXK_and_selector _ _ _)⟩

theorem sknp (x : Reg) : Statement (.sknp x) :=
  ⟨⟨"SKNP", 0xF0FF, 0xE0A1⟩, by decide, rfl, fits_of_and (wordXK_and_selector _ _ _)⟩

theorem ldVxDt (x : Reg) : Statement (.ldVxDt x) :=
  ⟨⟨"LD_VX_DT", 0xF0FF, 0xF007⟩, by decide, rfl, fits_of_and (wordXK_and_selector _ _ _)⟩

theorem ldVxK (x : Reg) : Statement (.ldVxK x) :=
  ⟨⟨"LD_VX_K", 0xF0FF, 0xF00A⟩, by decide, rfl, fits_of_and (wordXK_and_selector _ _ _)⟩

theorem ldDtVx (x : Reg) : Statement (.ldDtVx x) :=
  ⟨⟨"LD_DT_VX", 0xF0FF, 0xF015⟩, by decide, rfl, fits_of_and (wordXK_and_selector _ _ _)⟩

theorem ldStVx (x : Reg) : Statement (.ldStVx x) :=
  ⟨⟨"LD_ST_VX", 0xF0FF, 0xF018⟩, by decide, rfl, fits_of_and (wordXK_and_selector _ _ _)⟩

theorem addI (x : Reg) : Statement (.addI x) :=
  ⟨⟨"ADD_I", 0xF0FF, 0xF01E⟩, by decide, rfl, fits_of_and (wordXK_and_selector _ _ _)⟩

theorem ldF (x : Reg) : Statement (.ldF x) :=
  ⟨⟨"LD_F", 0xF0FF, 0xF029⟩, by decide, rfl, fits_of_and (wordXK_and_selector _ _ _)⟩

theorem ldB (x : Reg) : Statement (.ldB x) :=
  ⟨⟨"LD_B", 0xF0FF, 0xF033⟩, by decide, rfl, fits_of_and (wordXK_and_selector _ _ _)⟩

theorem ldMemVx (x : Reg) : Statement (.ldMemVx x) :=
  ⟨⟨"LD_MEM_VX", 0xF0FF, 0xF055⟩, by decide, rfl, fits_of_and (wordXK_and_selector _ _ _)⟩

theorem ldVxMem (x : Reg) : Statement (.ldVxMem x) :=
  ⟨⟨"LD_VX_MEM", 0xF0FF, 0xF065⟩, by decide, rfl, fits_of_and (wordXK_and_selector _ _ _)⟩

end Sys2Proof.Laws.RowFits
end

