-- ==== Sys2Proof/Tests/Slice0.lean ====
section
/-! SUPPORT. Tests: ill-formed words and images refused, every constructor decoded from a word written out from the spec,
one-step vectors of spec/95_test_vectors.md (named by their numbers there), and a witness for the hypotheses of each
obligation. Expected results come from the spec's own vectors, never from a run of this model. -/

namespace Sys2Proof.Tests

open Sys2Proof.Machine

/-! ## WellFormed: an ill-formed term for each check -/

/-- E6: 0x5121 matches no row under STRICT_DECODE = true, and row 7 under false (R116). -/
theorem test_wordWellFormed_refuses :
    wordWellFormed true 0x5121 = false ∧ wordWellFormed false 0x5121 = true ∧ wordWellFormed true 0x0123 = false := by
  decide

/-- S7: an image of 3585 bytes does not fit, one of 3584 does (R365, R366). -/
theorem test_imageWellFormed_refuses :
    imageWellFormed (List.replicate 3585 0) = false ∧ imageWellFormed (List.replicate 3584 0) = true := by
  simp only [imageWellFormed, List.length_replicate]
  decide

/-- The decoder rejects the word by name (R106). -/
abbrev rejects (w : Word) : Prop := decodeWord w = .error (.unknownOpcode w)

/-- E1, E4, E6, E7. -/
theorem test_decode_refuses_groups_0_5_9 :
    rejects 0x0000 ∧ rejects 0x00E1 ∧ rejects 0x00FF ∧ rejects 0x0123 ∧
    rejects 0x0FFF ∧ rejects 0x5121 ∧ rejects 0x512F ∧ rejects 0x9121 := by
  decide

/-- E8. -/
theorem test_decode_refuses_group_8 :
    rejects 0x8008 ∧ rejects 0x8009 ∧ rejects 0x800A ∧ rejects 0x800B ∧
    rejects 0x800C ∧ rejects 0x800D ∧ rejects 0x800F := by
  decide

/-- E10, E11. -/
theorem test_decode_refuses_groups_E_F :
    rejects 0xE09F ∧ rejects 0xE0A2 ∧ rejects 0xF000 ∧ rejects 0xF0FF ∧
    rejects 0xF01F ∧ rejects 0xF066 := by
  decide

/-- One byte is no instruction (R100). -/
theorem test_decode_refuses_truncated : decodeBytes [0x12] = .error .truncated := by decide

/-! ## Decode: every constructor from its word, the bits written out in the order of R101 -/

theorem test_decode_display :
    decodeWord 0b0000_0000_1110_0000 = .ok .cls ∧ decodeWord 0b1101_0001_0010_0101 = .ok (.drw 1 2 5) := by
  decide

theorem test_decode_control_flow :
    decodeWord 0b0000_0000_1110_1110 = .ok .ret ∧ decodeWord 0b0001_0010_0011_0100 = .ok (.jp 0x234) ∧
    decodeWord 0b0010_1010_1011_1100 = .ok (.call 0xABC) ∧
    decodeWord 0b1011_0011_0000_0000 = .ok (.jpV0 0x300) := by
  decide

theorem test_decode_skips :
    decodeWord 0b0011_0011_0100_0010 = .ok (.seImm 3 0x42) ∧
    decodeWord 0b0100_0011_0100_0010 = .ok (.sneImm 3 0x42) ∧
    decodeWord 0b0101_0001_0010_0000 = .ok (.seReg 1 2) ∧
    decodeWord 0b1001_0001_0010_0000 = .ok (.sneReg 1 2) := by
  decide

theorem test_decode_loads_and_immediates :
    decodeWord 0b0110_1010_1001_1101 = .ok (.ldImm 0xA 0x9D) ∧
    decodeWord 0b0111_0001_1111_1111 = .ok (.addImm 1 0xFF) ∧
    decodeWord 0b1100_0011_0000_1111 = .ok (.rnd 3 0x0F) := by
  decide

theorem test_decode_alu :
    decodeWord 0b1000_1010_1011_0000 = .ok (.ldReg 0xA 0xB) ∧
    decodeWord 0b1000_1010_1011_0001 = .ok (.orReg 0xA 0xB) ∧
    decodeWord 0b1000_1010_1011_0010 = .ok (.andReg 0xA 0xB) ∧
    decodeWord 0b1000_1010_1011_0011 = .ok (.xorReg 0xA 0xB) ∧
    decodeWord 0b1000_1010_1011_0100 = .ok (.addReg 0xA 0xB) ∧
    decodeWord 0b1000_1010_1011_0101 = .ok (.sub 0xA 0xB) ∧
    decodeWord 0b1000_1010_1011_0110 = .ok (.shr 0xA 0xB) ∧
    decodeWord 0b1000_1010_1011_0111 = .ok (.subn 0xA 0xB) ∧
    decodeWord 0b1000_1010_1011_1110 = .ok (.shl 0xA 0xB) := by
  decide

theorem test_decode_index_memory :
    decodeWord 0b1010_0001_0010_0011 = .ok (.ldI 0x123) ∧
    decodeWord 0b1111_0010_0001_1110 = .ok (.addI 2) ∧
    decodeWord 0b1111_0110_0010_1001 = .ok (.ldF 6) ∧
    decodeWord 0b1111_0101_0011_0011 = .ok (.ldB 5) ∧
    decodeWord 0b1111_0010_0101_0101 = .ok (.ldMemVx 2) ∧
    decodeWord 0b1111_1111_0110_0101 = .ok (.ldVxMem 0xF) := by
  decide

theorem test_decode_keypad_and_timers :
    decodeWord 0b1110_0001_1001_1110 = .ok (.skp 1) ∧
    decodeWord 0b1110_0001_1010_0001 = .ok (.sknp 1) ∧
    decodeWord 0b1111_0011_0000_1010 = .ok (.ldVxK 3) ∧
    decodeWord 0b1111_0001_0000_0111 = .ok (.ldVxDt 1) ∧
    decodeWord 0b1111_0111_0001_0101 = .ok (.ldDtVx 7) ∧
    decodeWord 0b1111_1000_0001_1000 = .ok (.ldStVx 8) := by
  decide

/-- The table's numbering: the high byte lies first in memory (R74), bits above nbits are 0. -/
theorem test_decodeTableWord :
    decodeTableWord 16 0x6A9D = some (.ldImm 0xA 0x9D) ∧ decodeTableWord 16 0x0000 = none ∧
    decodeTableWord 8 0xFFE0 = some .cls := by
  decide

/-- R74, R107: the high byte first, and the don't-care y of SHR comes back. -/
theorem test_encodeBytes :
    encodeBytes (.call 0xABC) = [0x2A, 0xBC] ∧ decodeBytes (encodeBytes (.shr 1 2) ++ [0x55]) = .ok (.shr 1 2, [0x55]) := by
  decide

/-! ## One step -/

/-- The next state of the next step with the word at pc, if there is one. -/
def after (s : State) (w : Nat) : Option State :=
  match step (s.withFetchWord 16 w) with
  | .next t => some t
  | _ => none

/-- The state after Reset with some registers set. -/
def regs (l : List (Reg × Byte)) : State := l.foldl (fun s p => s.setV p.1 p.2) State.reset

/-- The state with memory holding the bytes from address a on. -/
def poke (s : State) (a : Nat) (l : List Byte) : State := { s with mem := (s.mem.writeBytes a l).getD s.mem }

/-- Some registers of the next state. -/
def vAfter (s : State) (w : Nat) (l : List Reg) : Option (List Byte) := (after s w).map (fun t => l.map t.getV)

/-- pc of the next state. -/
def pcAfter (s : State) (w : Nat) : Option Word := (after s w).map (·.pc)

/-- The fault record of the next state. -/
def faultAfter (s : State) (w : Nat) : Option FaultRecord := (after s w).map (·.fault)

/-- A byte of memory in the next state. -/
def byteAfter (s : State) (w a : Nat) : Option Byte := (after s w).bind (fun t => t.mem.read a)

/-- A pixel of the next state. -/
def pixelAfter (s : State) (w px py : Nat) : Option Bool := (after s w).map (fun t => t.fb.pixel px py)

/-- The next state of the next transaction, if there is one. -/
def transact (s : State) (t : Transaction) : Option State :=
  match step { s with requests := [t] } with
  | .next u => some u
  | _ => none

/-! ### The Cycle (L2.1) -/

/-- Y1: the last word of memory runs, and leaves pc = 0x1000. -/
theorem test_cycle_at_the_top_of_memory :
    vAfter { State.reset with pc := 0xFFE } 0x6007 [0] = some [0x07] ∧
    pcAfter { State.reset with pc := 0xFFE } 0x6007 = some 0x1000 := by
  decide

/-- Y2, Y3: a fetch beyond memory. -/
theorem test_cycle_fetch_range :
    (transact { State.reset with pc := 0xFFF } .cycle).map (fun t => (t.fault, t.pc)) =
      some (⟨.fetchRange, 0, 0xFFF⟩, 0xFFF) ∧
    (transact { State.reset with pc := 0x1000 } .cycle).map (·.fault) = some ⟨.fetchRange, 0, 0x1000⟩ := by
  decide

/-- Y5: a Cycle right after Reset meets 0x0000. -/
theorem test_cycle_unknown_opcode :
    (transact State.reset .cycle).map (fun t => (t.fault, t.pc, t.response)) =
      some (⟨.unknownOpcode, 0, 0x200⟩, 0x202, .cycle (.fault .unknownOpcode)) := by
  decide

/-- Y6: an odd pc is legal. -/
theorem test_cycle_odd_pc :
    vAfter { State.reset with pc := 0x201 } 0x6A55 [0xA] = some [0x55] ∧
    pcAfter { State.reset with pc := 0x201 } 0x6A55 = some 0x203 := by
  decide

/-! ### Display (L2.2) -/

/-- D16. -/
theorem test_cls : pixelAfter { State.reset with fb := Vector.replicate 32 (BitVec.allOnes 64) } 0x00E0 63 31 = some false := by
  decide

/-- D3: clipped at column 63 and not drawn at column 0. -/
theorem test_drw_clips :
    let s := { poke (regs [(0, 60), (1, 31)]) 0x300 [0xFF] with i := 0x300 }
    pixelAfter s 0xD011 63 31 = some true ∧ pixelAfter s 0xD011 60 31 = some true ∧
    pixelAfter s 0xD011 59 31 = some false ∧ pixelAfter s 0xD011 0 31 = some false ∧ vAfter s 0xD011 [0xF] = some [0] := by
  decide

/-- D8: a pixel that was on is turned off and sets VF. -/
theorem test_drw_collides :
    let s := { poke State.reset 0x300 [0xC0] with i := 0x300, fb := Vector.replicate 32 2 }
    pixelAfter s 0xD011 0 0 = some true ∧ pixelAfter s 0xD011 1 0 = some false ∧ vAfter s 0xD011 [0xF] = some [1] := by
  decide

/-! ### Control flow and skips (L2.3) -/

/-- J1. -/
theorem test_jp : pcAfter State.reset 0x1234 = some 0x234 := by decide

/-- J5: the last free stack entry. -/
theorem test_call :
    (after { State.reset with pc := 0x3FE, sp := 15 } 0x2ABC).map (fun t => (t.stackAt 15, t.sp, t.pc)) =
      some (0x400, 16, 0xABC) := by
  decide

/-- J6. -/
theorem test_call_overflow :
    (after { State.reset with sp := 16 } 0x2ABC).map (fun t => (t.fault, t.sp, t.pc)) =
      some (⟨.stackOverflow, 0x2ABC, 0x200⟩, 16, 0x202) := by
  decide

/-- J8. -/
theorem test_ret :
    (after { State.reset with sp := 16, stack := Vector.replicate 16 0x21E } 0x00EE).map (fun t => (t.sp, t.pc)) =
      some (15, 0x21E) := by
  decide

/-- J7. -/
theorem test_ret_underflow :
    (after State.reset 0x00EE).map (fun t => (t.fault, t.pc)) = some (⟨.stackUnderflow, 0x00EE, 0x200⟩, 0x202) := by
  decide

/-- J10: the sum is not masked. -/
theorem test_jp_v0 : pcAfter (regs [(0, 0xFF)]) 0xBFFF = some 0x10FE := by decide

/-- Q1, Q2. -/
theorem test_se_imm :
    pcAfter (regs [(3, 0x42)]) 0x3342 = some 0x204 ∧ pcAfter (regs [(3, 0x41)]) 0x3342 = some 0x202 := by
  decide

/-- Q3, Q4. -/
theorem test_sne_imm : pcAfter (regs [(3, 0x41)]) 0x4342 = some 0x204 ∧ pcAfter State.reset 0x4000 = some 0x202 := by
  decide

/-- Q5, and registers that differ (R183). -/
theorem test_se_reg :
    pcAfter (regs [(1, 7), (2, 7)]) 0x5120 = some 0x204 ∧ pcAfter (regs [(1, 7), (2, 8)]) 0x5120 = some 0x202 := by
  decide

/-- Q6, and registers that differ (R184). -/
theorem test_sne_reg :
    pcAfter (regs [(1, 1), (2, 1)]) 0x9120 = some 0x202 ∧ pcAfter (regs [(1, 1), (2, 2)]) 0x9120 = some 0x204 := by
  decide

/-! ### ALU (L2.4) -/

/-- A1. -/
theorem test_ld_imm : vAfter State.reset 0x6A9D [0xA] = some [0x9D] := by decide

/-- A2. -/
theorem test_add_imm : vAfter (regs [(1, 1), (0xF, 0x55)]) 0x71FF [1, 0xF] = some [0, 0x55] := by decide

/-- A3. -/
theorem test_ld_reg : vAfter (regs [(2, 0x33)]) 0x8120 [1, 2] = some [0x33, 0x33] := by decide

/-- A4. -/
theorem test_or : vAfter (regs [(1, 0x0F), (2, 0xF0), (0xF, 0x77)]) 0x8121 [1, 0xF] = some [0xFF, 0x77] := by decide

/-- A5. -/
theorem test_and : vAfter (regs [(1, 0x3C), (2, 0x0F)]) 0x8122 [1] = some [0x0C] := by decide

/-- A5. -/
theorem test_xor : vAfter (regs [(1, 0x3C), (2, 0x0F)]) 0x8123 [1] = some [0x33] := by decide

/-- A6, A7, A9. -/
theorem test_add_reg :
    vAfter (regs [(0, 0x80), (1, 0x7F)]) 0x8014 [0, 0xF] = some [0xFF, 0] ∧
    vAfter (regs [(0, 0x80), (1, 0x80)]) 0x8014 [0, 0xF] = some [0, 1] ∧
    vAfter (regs [(0, 0x90)]) 0x8004 [0, 0xF] = some [0x20, 1] := by
  decide

/-- F1 to F3: VF as an operand. -/
theorem test_add_reg_vf :
    vAfter (regs [(0xF, 0xFF), (1, 1)]) 0x8F14 [0xF] = some [1] ∧
    vAfter (regs [(1, 0xFF), (0xF, 2)]) 0x81F4 [1, 0xF] = some [1, 1] ∧
    vAfter (regs [(0xF, 0x7F)]) 0x8FF4 [0xF] = some [0] := by
  decide

/-- A10 to A12. -/
theorem test_sub :
    vAfter (regs [(0, 5), (1, 3)]) 0x8015 [0, 0xF] = some [2, 1] ∧
    vAfter (regs [(0, 7), (1, 7)]) 0x8015 [0, 0xF] = some [0, 0] ∧
    vAfter (regs [(0, 3), (1, 5)]) 0x8015 [0, 0xF] = some [0xFE, 0] := by
  decide

/-- F4 to F6. -/
theorem test_sub_vf :
    vAfter (regs [(1, 5), (0xF, 3)]) 0x81F5 [1, 0xF] = some [4, 1] ∧
    vAfter (regs [(0xF, 5), (1, 3)]) 0x8F15 [0xF] = some [0xFE] ∧
    vAfter (regs [(0xF, 0x99)]) 0x8FF5 [0xF] = some [0] := by
  decide

/-- A18: Vy ignored. F7. -/
theorem test_shr :
    vAfter (regs [(0, 1), (1, 0xFF)]) 0x8016 [0, 0xF] = some [0, 1] ∧
    vAfter (regs [(0xF, 0x81)]) 0x8F06 [0xF] = some [0] := by
  decide

/-- A14 to A16. -/
theorem test_subn :
    vAfter (regs [(0, 3), (1, 5)]) 0x8017 [0, 0xF] = some [2, 1] ∧
    vAfter (regs [(0, 5), (1, 5)]) 0x8017 [0, 0xF] = some [0, 0] ∧
    vAfter (regs [(0, 5), (1, 3)]) 0x8017 [0, 0xF] = some [0xFE, 0] := by
  decide

/-- F8, F9. -/
theorem test_subn_vf :
    vAfter (regs [(1, 2), (0xF, 9)]) 0x81F7 [1, 0xF] = some [0xFF, 1] ∧
    vAfter (regs [(1, 9), (0xF, 2)]) 0x8F17 [0xF] = some [8] := by
  decide

/-- A21, A22, F11. -/
theorem test_shl :
    vAfter (regs [(0, 0x7F), (0xF, 1)]) 0x800E [0, 0xF] = some [0xFE, 0] ∧
    vAfter (regs [(0, 0x80)]) 0x80EE [0, 0xF] = some [0, 1] ∧
    vAfter (regs [(0xF, 0x80)]) 0x8F0E [0xF] = some [2] := by
  decide

/-- A24: a zero mask gives 0 whatever the draw. -/
theorem test_rnd : ∃ t, exec (.rnd 3 0) (regs [(3, 9)]) = .next t ∧ t.getV 3 = 0 :=
  ⟨_, rfl, by simp [State.getV, State.setV]⟩

/-! ### Index and memory (L2.5) -/

/-- M1. -/
theorem test_ld_i : (after { State.reset with i := 0xFFFF } 0xA123).map (·.i) = some 0x123 := by decide

/-- M3, M4. -/
theorem test_add_i :
    (after { regs [(1, 1)] with i := 0xFFF } 0xF11E).map (fun t => (t.i, t.getV 0xF)) = some (0x1000, 0) ∧
    (after { regs [(1, 1)] with i := 0xFFFF } 0xF11E).map (·.i) = some 0 := by
  decide

/-- M5. -/
theorem test_ld_f :
    (after (regs [(0, 5)]) 0xF029).map (·.i) = some 0x069 ∧
    (after (regs [(0, 0xFF)]) 0xF029).map (·.i) = some 0x54B := by
  decide

/-- M7. -/
theorem test_ld_b :
    let s := { regs [(5, 157)] with i := 0xFFD }
    byteAfter s 0xF533 0xFFD = some 1 ∧ byteAfter s 0xF533 0xFFE = some 5 ∧ byteAfter s 0xF533 0xFFF = some 7 := by
  decide

/-- M8. -/
theorem test_ld_b_range :
    let s := { regs [(5, 157)] with i := 0xFFE }
    faultAfter s 0xF533 = some ⟨.memoryRange, 0xF533, 0x200⟩ ∧ byteAfter s 0xF533 0xFFE = some 0 ∧
    pcAfter s 0xF533 = some 0x202 := by
  decide

/-- M9, M12. -/
theorem test_ld_mem_vx :
    let s := { regs [(0, 1), (1, 2), (2, 3), (3, 4)] with i := 0x400 }
    byteAfter s 0xF255 0x400 = some 1 ∧ byteAfter s 0xF255 0x402 = some 3 ∧ byteAfter s 0xF255 0x403 = some 0 ∧
    (after s 0xF255).map (·.i) = some 0x400 ∧
    byteAfter { regs [(0, 0xAB)] with i := 0xFFF } 0xF055 0xFFF = some 0xAB := by
  decide

/-- M11. -/
theorem test_ld_mem_vx_range :
    let s := { regs [(0, 0x77)] with i := 0xFF1 }
    faultAfter s 0xFF55 = some ⟨.memoryRange, 0xFF55, 0x200⟩ ∧ byteAfter s 0xFF55 0xFF1 = some 0 := by
  decide

/-- M13, and V3 kept (R246). -/
theorem test_ld_vx_mem :
    vAfter { poke (regs [(3, 9)]) 0x300 [1, 5, 7, 8] with i := 0x300 } 0xF265 [0, 1, 2, 3] = some [1, 5, 7, 9] := by
  decide

/-- M15. -/
theorem test_ld_vx_mem_range :
    let s := { regs [(0, 0x77)] with i := 0x1000 }
    faultAfter s 0xF065 = some ⟨.memoryRange, 0xF065, 0x200⟩ ∧ vAfter s 0xF065 [0] = some [0x77] := by
  decide

/-! ### Keypad and timers (L2.7, L2.8) -/

/-- K1, K2. -/
theorem test_skp :
    pcAfter { regs [(1, 3)] with keys := 0x0008 } 0xE19E = some 0x204 ∧ pcAfter (regs [(1, 3)]) 0xE19E = some 0x202 := by
  decide

/-- K3, K4. -/
theorem test_sknp :
    pcAfter (regs [(1, 3)]) 0xE1A1 = some 0x204 ∧
    faultAfter (regs [(1, 0x10)]) 0xE1A1 = some ⟨.keyRange, 0xE1A1, 0x200⟩ := by
  decide

/-- K5. -/
theorem test_ld_vx_k_waits : pcAfter { State.reset with pc := 0x210 } 0xF30A = some 0x210 := by decide

/-- K6. -/
theorem test_ld_vx_k_lowest :
    let s := { State.reset with pc := 0x210, keys := 0x0280 }
    vAfter s 0xF30A [3] = some [7] ∧ pcAfter s 0xF30A = some 0x212 := by
  decide

/-- T1. -/
theorem test_ld_vx_dt : vAfter { State.reset with dt := 0x3C } 0xF107 [1] = some [0x3C] := by decide

/-- T2. -/
theorem test_ld_dt_vx : (after (regs [(0, 0x3C)]) 0xF015).map (·.dt) = some 0x3C := by decide

/-- T3. -/
theorem test_ld_st_vx : (after (regs [(0, 1)]) 0xF018).map (fun t => (t.st, t.soundNotify)) = some (1, false) := by
  decide

/-- T4 to T7, T9. -/
theorem test_tick :
    (transact State.reset .tick).map (fun t => (t.dt, t.st, t.soundNotify)) = some (0, 0, false) ∧
    (transact { State.reset with dt := 1, st := 1 } .tick).map (fun t => (t.dt, t.st, t.soundNotify)) =
      some (0, 0, true) ∧
    (transact { State.reset with dt := 5, st := 2 } .tick).map (fun t => (t.dt, t.st, t.soundNotify)) =
      some (4, 1, false) ∧
    (transact { State.reset with st := 0xFF } .tick).map (fun t => (t.st, t.soundNotify)) = some (0xFE, false) ∧
    (transact { State.reset with dt := 2, fault := ⟨.keyRange, 0, 0⟩ } .tick).map (·.dt) = some 1 := by
  decide

/-! ### Host transactions (L2.6, L2.7) -/

/-- P4': the tail of an earlier image stays. -/
theorem test_load_program :
    let s := poke State.reset 0x200 [0x60, 0x01, 0x70, 0x01]
    (transact s (.loadProgram [0x12, 0x00])).map (fun t => (t.mem.readBytes 0x200 4, t.response)) =
      some (some [0x12, 0x00, 0x70, 0x01], .load .ok) := by
  decide

/-- P2'. -/
theorem test_load_program_too_long :
    (loadProgram (List.replicate 3585 0x11) State.reset) = { State.reset with response := .load .loadError } := by
  have h : ¬ (List.replicate 3585 (0x11 : Byte)).length ≤ Config.progMax := by
    rw [List.length_replicate]; decide
  rw [loadProgram, if_neg h]
  rfl

/-- P6': the font, the reset pc and a cleared fault, from a halted state. -/
theorem test_reset :
    (transact { State.reset with pc := 0x999, fault := ⟨.keyRange, 1, 2⟩ } .reset).map
        (fun t => (t.mem.readBytes 0x050 5, t.mem.read 0x200, t.pc, t.fault)) =
      some (some [0xF0, 0x90, 0x90, 0x90, 0xF0], some 0, 0x200, FaultRecord.clear) := by
  decide

/-- K9, D17. -/
theorem test_host_reads :
    (transact State.reset (.keyWrite 0x8001)).map (·.keys) = some 0x8001 ∧
    (transact { State.reset with keys := 0x8001 } .keyRead).map (·.response) = some (.keys 0x8001) ∧
    (State.reset.fb.toggle 3 1).hostBit 67 = true ∧ (State.reset.fb.toggle 3 1).hostBit 66 = false := by
  decide

/-- R331: cmd 3 is KeyWrite, cmd 2 a load of load_len bytes, a Halted Cycle's result code is 2 with done, and done is 0
between transactions. That rst alone is performed where req is 1 too is the model's choice (log 10). -/
theorem test_ports :
    PortIn.transaction ⟨true, true, 0, 0, 0, #v[]⟩ = some .reset ∧
    PortIn.transaction ⟨false, true, 3, 0x8001, 0, #v[]⟩ = some (.keyWrite 0x8001) ∧
    PortIn.transaction ⟨false, true, 2, 0, 2, #v[0x12, 0x00]⟩ = some (.loadProgram [0x12, 0x00]) ∧
    PortIn.transaction ⟨false, false, 3, 0, 0, #v[]⟩ = none ∧
    (let o := (State.reset.respond (.cycle .halted)).portOut 0; (o.done, o.result) = (true, 2)) ∧
    (State.reset.portIdle 0).done = false := by
  decide

/-- R360, R362: another FONT is what Reset writes at 0x050 to 0x09F. -/
theorem test_reset_with_another_font :
    let m := (State.resetWith (Vector.replicate 80 0xAA)).mem
    m.read 0x04F = some 0 ∧ m.read 0x050 = some 0xAA ∧ m.read 0x09F = some 0xAA ∧ m.read 0x0A0 = some 0 := by
  decide +kernel

/-! ## Witnesses: concrete states and operands that meet the hypotheses of each obligation, at the edges of its clauses -/

/-- A halted state. -/
def halted : State := { State.reset with fault := ⟨.keyRange, 0xE19E, 0x200⟩ }

theorem witness_EncodeOfDecodeIsTheWord : decodeWord 0x8126 = .ok (.shr 1 2) ∧ decodeWord 0x00E0 = .ok .cls := by
  decide

theorem witness_DecoderAcceptsExactlyTheOpcodeMap :
    wordWellFormed true 0x00EE = true ∧ wordWellFormed true 0x00EF = false := by
  decide

theorem witness_LaxDecodeChangesGroups5And9Only :
    fieldGroup 0x5FFF = 5 ∧ fieldGroup 0x9001 = 9 ∧ fieldGroup 0x8001 ≠ 5 ∧ fieldGroup 0x8001 ≠ 9 := by
  decide

/-- At 0x200 lies 6A9D. -/
def running : State := poke State.reset 0x200 [0x6A, 0x9D]

theorem witness_StepRunsTheDecodedInstruction :
    running.fault.kind = .none ∧ running.fetch = some 0x6A9D ∧ decodeWord 0x6A9D = .ok (.ldImm 0xA 0x9D) ∧
    running.requests = [] ∧ { running with requests := [.cycle, .tick] }.requests = .cycle :: [.tick] ∧
    halted.fault.kind ≠ .none := by
  decide

theorem witness_FetchIsBigEndian : { State.reset with pc := 0xFFE }.pc.toNat ≤ 0xFFE := by decide

theorem witness_FetchBeyondMemoryFaults :
    State.reset.fault.kind = .none ∧ { State.reset with pc := 0xFFF }.NextIsCycle ∧
    { State.reset with pc := 0xFFFF, requests := [.cycle, .tick] }.NextIsCycle ∧
    0xFFF ≤ { State.reset with pc := 0xFFF }.pc.toNat ∧
    0xFFF ≤ { State.reset with pc := 0xFFFF, requests := [.cycle, .tick] }.pc.toNat :=
  ⟨rfl, .inl rfl, .inr rfl, by decide, by decide⟩

theorem witness_UnknownWordFaults :
    State.reset.fault.kind = .none ∧ State.reset.NextIsCycle ∧ { State.reset with requests := [.cycle] }.NextIsCycle ∧
    State.reset.fetch = some 0 ∧ { State.reset with requests := [.cycle] }.fetch = some 0 ∧
    wordWellFormed true 0 = false :=
  ⟨rfl, .inl rfl, .inr rfl, by decide, by decide, by decide⟩

theorem witness_HaltedCycleChangesNothing : 
    halted.Halted ∧ halted.NextIsCycle ∧ { halted with requests := [.cycle] }.NextIsCycle :=
  ⟨by simp [State.Halted, halted], .inl rfl, .inr rfl⟩

theorem witness_OnlyResetLeavesTheHaltedState :
    { halted with requests := [.tick] }.Halted ∧ { halted with requests := [.tick] }.requests.head? ≠ some .reset ∧
    ∃ t, step { halted with requests := [.tick] } = .next t :=
  ⟨by simp [State.Halted, halted], by decide, _, rfl⟩

/-- One next state keeps the record and one writes it. -/
theorem witness_ExecutionFaultsArePrecise :
    (∃ t, exec .ret { State.reset with sp := 1 } = .next t ∧ t.fault.kind = .none) ∧
    ∃ t, exec .ret State.reset = .next t ∧ t.fault.kind = .stackUnderflow :=
  ⟨⟨_, rfl, rfl⟩, _, rfl, rfl⟩

theorem witness_InstructionsWriteOnlyTheirOwnState : ∃ t, exec (.ldB 5) State.reset = .next t := ⟨_, rfl⟩

/-- The last free entry, and a full stack. -/
theorem witness_CallPushesTheReturnAddress :
    { State.reset with sp := 15 }.sp.val < 16 ∧ { State.reset with sp := 16 }.sp.val = 16 := by
  decide

theorem witness_ReturnPopsTheTopAddress :
    0 < { State.reset with sp := 16 }.sp.val ∧ { State.reset with sp := 16 }.sp.val - 1 < 16 ∧
    0 < { State.reset with sp := 1 }.sp.val ∧ State.reset.sp.val = 0 := by
  decide

theorem witness_CallStackRefinesAList :
    ∃ t, runNoFault [(0x202, .call 0x300), (0x302, .call 0x400), (0x402, .ret)] State.reset = some t := ⟨_, rfl⟩

theorem witness_ReturnResumesTheNewestCall :
    0 < { State.reset with sp := 16 }.sp.val ∧ ∃ t, exec .ret { State.reset with sp := 16 } = .next t :=
  ⟨by decide, _, rfl⟩

theorem witness_AddSetsTheCarry : (0 : Reg) ≠ VF ∧ (14 : Reg) ≠ VF := by decide

/-- Neither operand, either and both VF. -/
theorem witness_SubtractInEveryForm : ((0 : Reg) ≠ VF ∧ (14 : Reg) ≠ VF) ∧ (15 : Reg) = VF := by decide

/-- Neither operand, either and both VF. -/
theorem witness_ReverseSubtractInEveryForm : ((14 : Reg) ≠ VF ∧ (0 : Reg) ≠ VF) ∧ (15 : Reg) = VF := by decide

theorem witness_ShiftsInEveryForm : (0 : Reg) ≠ VF ∧ (15 : Reg) = VF := by decide

/-- The third digit at 0xFFF, and one byte beyond. -/
theorem witness_DecimalDigitsAreStored :
    State.reset.mem.wf = true ∧ { State.reset with i := 0xFFD }.indexAddr 2 ≤ 0xFFF ∧
    0xFFF < { State.reset with i := 0xFFE }.indexAddr 2 := by
  decide

/-- The last register at 0xFFF, and one byte beyond. -/
theorem witness_RegisterBlockIsStored :
    State.reset.mem.wf = true ∧ { State.reset with i := 0xFF0 }.indexAddr (15 : Reg).val ≤ 0xFFF ∧
    0xFFF < { State.reset with i := 0xFF1 }.indexAddr (15 : Reg).val := by
  decide

/-- I + x at the edge, registers on both sides of x. -/
theorem witness_RegisterBlockIsLoaded :
    { State.reset with i := 0xFFF }.indexAddr (0 : Reg).val ≤ 0xFFF ∧
    0xFFF < { State.reset with i := 0x1000 }.indexAddr (0 : Reg).val ∧ (0 : Reg) ≤ 0 ∧ (0 : Reg) < 15 := by
  decide

theorem witness_StoreThenLoadRestoresTheRegisters :
    let s := { State.reset with i := 0xFF0 }
    s.mem.wf = true ∧ s.indexAddr (15 : Reg).val ≤ 0xFFF ∧
    ∃ t u : State, exec (.ldMemVx 15) s = .next t ∧ u.i = s.i ∧ u.mem = t.mem :=
  ⟨by decide, by decide, _, _, rfl, rfl, rfl⟩

/-- The range meets both bytes at the top of memory, only the first (from below), only the second, and neither. -/
theorem witness_StoreIsSeenByTheNextFetch :
    (let s := { State.reset with i := 0xFFE, pc := 0xFFE };
      s.mem.wf = true ∧ s.pc.toNat ≤ 0xFFE ∧ s.indexAddr (1 : Reg).val ≤ 0xFFF ∧
      s.indexAddr (0 : Reg).val = s.pc.toNat ∧ s.indexAddr (1 : Reg).val = s.pc.toNat + 1) ∧
    (let s := { State.reset with i := 0xFFB, pc := 0xFFD };
      s.indexAddr 2 ≤ 0xFFF ∧ s.indexAddr 2 = s.pc.toNat ∧ s.indexAddr 2 < s.pc.toNat + 1) ∧
    (let s := { State.reset with i := 0x203, pc := 0x202 };
      s.indexAddr 2 ≤ 0xFFF ∧ s.pc.toNat < s.indexAddr 0 ∧ s.indexAddr 0 = s.pc.toNat + 1) ∧
    (let s := { State.reset with i := 0x204, pc := 0x202 };
      s.indexAddr 2 ≤ 0xFFF ∧ s.pc.toNat + 1 < s.indexAddr 0) := by
  decide

theorem witness_KeySkips : ((regs [(1, 15)]).getV 1).toNat ≤ 15 ∧ 15 < ((regs [(1, 16)]).getV 1).toNat := by decide

/-- The lowest and the highest key, and none. -/
theorem witness_KeyWaitTakesTheLowestKey :
    ((0xFFFF#16).getLsbD (0 : Reg).val = true ∧ ∀ j : Reg, j < 0 → (0xFFFF#16).getLsbD j.val = false) ∧
    ((0x8000#16).getLsbD (15 : Reg).val = true ∧ ∀ j : Reg, j < 15 → (0x8000#16).getLsbD j.val = false) ∧
    ∀ k : Reg, State.reset.keys.getLsbD k.val = false := by
  decide

theorem witness_KeyWaitSpins :
    let s := poke State.reset 0x200 [0xF3, 0x0A]
    s.fault.kind = .none ∧ s.NextIsCycle ∧ { s with requests := [.cycle] }.NextIsCycle ∧
    s.fetch = some (encode (.ldVxK 3)) ∧ ∀ k : Reg, s.keys.getLsbD k.val = false :=
  ⟨rfl, .inl rfl, .inr rfl, by decide, by decide⟩

theorem witness_TickCountsBothTimersDown :
    { State.reset with requests := [.tick, .cycle] }.requests = .tick :: [.cycle] := rfl

theorem witness_SoundTimerAndRandomSourceAreNotRead :
    (∃ t, exec (.ldVxDt 3) State.reset = .next t) ∧ ∀ x kk, Instr.ldVxDt 3 ≠ .rnd x kk :=
  ⟨⟨_, rfl⟩, fun _ _ h => nomatch h⟩

/-- No row at all, and the last row's byte at 0xFFF. -/
theorem witness_DrawInvertsExactlyTheSprite :
    ((0 : RowCount).val = 0 ∨ { State.reset with i := 0xFFFF }.indexAddr (0 : RowCount).val ≤ 0x1000) ∧
    ((15 : RowCount).val = 0 ∨ { State.reset with i := 0xFF1 }.indexAddr (15 : RowCount).val ≤ 0x1000) := by
  decide

theorem witness_DrawBeyondMemoryFaults :
    0 < (15 : RowCount).val ∧ 0x1000 < { State.reset with i := 0xFF2 }.indexAddr (15 : RowCount).val ∧
    0 < (1 : RowCount).val ∧ 0x1000 < { State.reset with i := 0x1000 }.indexAddr (1 : RowCount).val := by
  decide

theorem witness_DrawingTwiceRestoresTheScreen :
    (0 : Reg) ≠ VF ∧ (1 : Reg) ≠ VF ∧
    ((5 : RowCount).val = 0 ∨ { State.reset with i := 0x050 }.indexAddr (5 : RowCount).val ≤ 0x1000) := by
  decide

/-- The largest image, and one byte more. -/
theorem witness_LoadProgramCopiesTheImage :
    State.reset.mem.wf = true ∧
    { State.reset with requests := [.loadProgram [0x12, 0x00]] }.requests = .loadProgram [0x12, 0x00] :: [] ∧
    (List.replicate 3584 (0 : Byte)).length ≤ 3584 ∧ 3584 < (List.replicate 3585 (0 : Byte)).length :=
  ⟨rfl, rfl, by rw [List.length_replicate], by rw [List.length_replicate]; decide⟩

theorem witness_KeyWriteAndHostReads :
    { State.reset with requests := [.keyWrite 0x8001] }.requests = .keyWrite 0x8001 :: [] ∧
    { State.reset with requests := [.keyRead] }.requests = .keyRead :: [] ∧
    { State.reset with requests := [.fbRead] }.requests = .fbRead :: [] ∧
    { State.reset with requests := [.statusRead] }.requests = .statusRead :: [] :=
  ⟨rfl, rfl, rfl, rfl⟩

theorem witness_ResetTransactionRestoresEverything :
    { halted with requests := [.reset, .cycle] }.requests = .reset :: [.cycle] := rfl

theorem witness_IdleLoopIsFinal :
    let s := poke State.reset 0x200 [0x12, 0x00]
    s.Finished ∧ s.NextIsCycle ∧ { s with requests := [.cycle] }.NextIsCycle :=
  ⟨⟨by decide, 0x200, by decide, by decide⟩, .inl rfl, .inr rfl⟩

theorem witness_ResetMeetsTheInvariant : Inv State.reset :=
  ⟨by decide, by decide, by decide, fun _ => rfl⟩

theorem witness_StepKeepsTheInvariant : Inv State.reset ∧ ∃ t, step State.reset = .next t :=
  ⟨witness_ResetMeetsTheInvariant, _, rfl⟩

theorem witness_StaleStackEntriesAreUnobservable :
    SameButStale { State.reset with sp := 1 } { State.reset with sp := 1, stack := State.reset.stack.set 1 7 } ∧
    ∃ t, step { State.reset with sp := 1 } = .next t :=
  ⟨⟨by decide, rfl⟩, _, rfl⟩

end Sys2Proof.Tests
end

section
/-! SUPPORT. Proofs about memory access and ordering (20_memory.md). -/

namespace Sys2Proof.Machine

/-- A read inside memory answers the byte the list gives the address (R70, R71). -/
theorem Memory.read_of_lt (m : Memory) {a : Nat} (h : a < 4096) : m.read a = some (m.lookup a) :=
  if_pos h

/-- Settles O8: both bytes of the fetch exist, and the opcode joins them with the lower address in bits 15:8. -/
theorem fetchIsBigEndian : Obligations.FetchIsBigEndian := by
  intro s hpc
  have hhi : s.mem.read s.pc.toNat = some (s.mem.lookup s.pc.toNat) := Memory.read_of_lt _ (by omega)
  have hlo : s.mem.read (s.pc.toNat + 1) = some (s.mem.lookup (s.pc.toNat + 1)) := Memory.read_of_lt _ (by omega)
  exact ⟨_, _, _, State.fetch_of_le s hpc, hhi, hlo, joinBytes_toNat _ _⟩

end Sys2Proof.Machine
end

section
/-! SUPPORT. Proofs about the encoding and the Cycle (30_encoding.md). -/

namespace Sys2Proof.Machine

/-! ## Words with a selector (R102, R105): the bits the row fixes, then the operands -/

theorem wordXK_toNat_fixed_add (g : BitVec 4) (x : Reg) (kk : Byte) :
    (wordXK g x kk).toNat = (g.toNat * 4096 + kk.toNat) + x.val * 256 := by
  rw [wordXK_toNat]; omega

theorem wordXY_toNat_fixed_add (g : BitVec 4) (x y : Reg) (s : BitVec 4) :
    (wordXY g x y s).toNat = (g.toNat * 4096 + s.toNat) + x.val * 256 + y.val * 16 := by
  rw [wordXY_toNat]; omega

/-- Settles O5: every word is its format's number at the row's group and selector. -/
theorem wordsFollowTheFormats : Obligations.WordsFollowTheFormats := by
  refine ⟨fun nnn => ?formatN, fun x kk => ?formatXK, fun x y => ?formatXYS, fun x y n => ?formatXYN,
    fun x => ?formatXS, rfl, rfl⟩
  case formatN =>
    exact ⟨wordN_toNat 0x1 nnn, wordN_toNat 0x2 nnn, wordN_toNat 0xA nnn, wordN_toNat 0xB nnn⟩
  case formatXK =>
    exact ⟨wordXK_toNat 0x3 x kk, wordXK_toNat 0x4 x kk, wordXK_toNat 0x6 x kk, wordXK_toNat 0x7 x kk,
      wordXK_toNat 0xC x kk⟩
  case formatXYS =>
    have group8 := wordXY_toNat_fixed_add 0x8 x y
    exact ⟨wordXY_toNat_fixed_add 0x5 x y 0x0, group8 0x0, group8 0x1, group8 0x2, group8 0x3, group8 0x4, group8 0x5,
      group8 0x6, group8 0x7, group8 0xE, wordXY_toNat_fixed_add 0x9 x y 0x0⟩
  case formatXYN => exact wordXY_toNat 0xD x y (nibble n)
  case formatXS =>
    have groupE := wordXK_toNat_fixed_add 0xE x
    have groupF := wordXK_toNat_fixed_add 0xF x
    exact ⟨groupE 0x9E, groupE 0xA1, groupF 0x07, groupF 0x0A, groupF 0x15, groupF 0x18, groupF 0x1E, groupF 0x29,
      groupF 0x33, groupF 0x55, groupF 0x65⟩

/-! ## The Cycle (R112, R118), and the step that performs it (R325, log 1) -/

/-- A step whose next transaction is a Cycle performs it, the queue shorter by what was taken from it. -/
theorem step_of_nextIsCycle {s : State} (h : s.NextIsCycle) : step s = cycle { s with requests := s.requests.tail } := by
  cases hq : s.requests with
  | nil =>
    have hs : { s with requests := [] } = s := by rw [← hq]
    simp [step, nextTransaction, perform, hq, hs]
  | cons t rest =>
    have ht : t = .cycle := by simpa [State.NextIsCycle, hq] using h
    simp [step, nextTransaction, perform, hq, ht]

theorem cycle_of_running {s : State} (h : s.fault.kind = .none) : cycle s = finishCycle (runCycle s) := by
  simp [cycle, State.isHalted, h]

theorem runCycle_of_decode {s : State} {op : Word} {i : Instr} (hf : s.fetch = some op) (hd : decodeWord op = .ok i) :
    runCycle s = exec i s.advance := by
  simp [runCycle, hf, hd]

theorem State.cycleResult_of_running {s : State} (h : s.fault.kind = .none) : s.cycleResult = .ok := by
  simp [State.cycleResult, h]

theorem State.cycleResult_of_fault {s : State} (h : s.fault.kind ≠ .none) : s.cycleResult = .fault s.fault.kind := by
  unfold State.cycleResult
  split
  · contradiction
  · rfl

theorem cycle_of_decode {s : State} {op : Word} {i : Instr} (hrun : s.fault.kind = .none) (hfetch : s.fetch = some op)
    (hdec : decodeWord op = .ok i) : cycle s = finishCycle (exec i s.advance) := by
  rw [cycle_of_running hrun, runCycle_of_decode hfetch hdec]

/-- Settles O7: the step is the Cycle, which runs the decoded instruction and reports what the fault record then holds. -/
theorem stepRunsTheDecodedInstruction : Obligations.StepRunsTheDecodedInstruction := by
  refine ⟨fun s op i hrun hfetch hdec => ?step, fun t h => ?ok, fun t h => ?fault⟩
  case step =>
    have hstep (hn : s.NextIsCycle) :
        step s = finishCycle (exec i { s with pc := s.pc + 2, requests := s.requests.tail }) :=
      (step_of_nextIsCycle hn).trans (cycle_of_decode (s := { s with requests := s.requests.tail }) hrun hfetch hdec)
    constructor
    · intro hq
      rw [hstep (.inl (by rw [hq]; rfl)), hq, List.tail_nil, ← hq]
    · intro rest hq
      rw [hstep (.inr (by rw [hq]; rfl)), hq, List.tail_cons]
  case ok => rw [finishCycle, State.cycleResult_of_running h, State.respond]
  case fault => rw [finishCycle, State.cycleResult_of_fault h, State.respond]

end Sys2Proof.Machine
end

section
/-! SUPPORT. Proofs about the display (40_display.md). -/

namespace Sys2Proof.Machine

/-- What CLS does (R141). -/
theorem exec_cls (s : State) : exec .cls s = .next { s with fb := Framebuffer.clear } := rfl

/-- A write of the framebuffer changes the screen alone. -/
theorem State.withFb_frame (s : State) (fb : Framebuffer) : Frame [] [.screen] s { s with fb := fb } :=
  Frame.intro (fun _ _ => rfl) (fun _ => rfl) (fun _ => ⟨rfl, rfl⟩) (fun _ => rfl) (fun _ => rfl) (fun _ => rfl)
    (fun h => absurd (List.mem_singleton.mpr rfl) h) (fun _ _ => rfl) (fun _ => rfl) (fun _ => rfl)
    (fun _ => ⟨rfl, rfl⟩)

/-- Settles O46: the state after CLS differs in the framebuffer alone, and that is the cleared one. -/
theorem clearTurnsEveryPixelOff : Obligations.ClearTurnsEveryPixelOff := fun s =>
  ⟨_, exec_cls s, Framebuffer.pixel_clear, rfl, s.withFb_frame Framebuffer.clear⟩

end Sys2Proof.Machine
end

section
/-! SUPPORT. Proofs about control flow (41_control_flow.md). -/

namespace Sys2Proof.Machine

/-- What JP does (R162). -/
theorem exec_jp (nnn : Addr12) (s : State) : exec (.jp nnn) s = .next (s.setPc (zext16 nnn)) := rfl

/-- A write of pc changes pc alone. -/
theorem State.setPc_frame (s : State) (target : Word) : Frame [] [] s (s.setPc target) :=
  Frame.intro (fun _ _ => rfl) (fun _ => rfl) (fun _ => ⟨rfl, rfl⟩) (fun _ => rfl) (fun _ => rfl) (fun _ => rfl)
    (fun _ => rfl) (fun _ _ => rfl) (fun _ => rfl) (fun _ => rfl) (fun _ => ⟨rfl, rfl⟩)

/-- Settles O16: the state after JP differs in pc alone, and zero extension keeps the target's number. -/
theorem jumpGoesToItsTarget : Obligations.JumpGoesToItsTarget := fun nnn s =>
  ⟨_, exec_jp nnn s, zext16_toNat nnn, s.setPc_frame (zext16 nnn)⟩

end Sys2Proof.Machine
end

section
/-! SUPPORT. Proofs about the skips (42_skips.md). -/

namespace Sys2Proof.Machine

/-! ## What the four skips do (R181 to R184) -/

theorem exec_seImm (x : Reg) (kk : Byte) (s : State) :
    exec (.seImm x kk) s = .next (s.skipIf (s.getV x == kk)) := rfl

theorem exec_sneImm (x : Reg) (kk : Byte) (s : State) :
    exec (.sneImm x kk) s = .next (s.skipIf (s.getV x != kk)) := rfl

theorem exec_seReg (x y : Reg) (s : State) :
    exec (.seReg x y) s = .next (s.skipIf (s.getV x == s.getV y)) := rfl

theorem exec_sneReg (x y : Reg) (s : State) :
    exec (.sneReg x y) s = .next (s.skipIf (s.getV x != s.getV y)) := rfl

/-! ## Where a skip goes: bytes are equal exactly when their numbers are (R180) -/

theorem State.skipIf_beq_pc (s : State) (a b : Byte) :
    (s.skipIf (a == b)).pc = if a.toNat = b.toNat then s.pc + 2 else s.pc := by
  simp [BitVec.toNat_inj]

theorem State.skipIf_bne_pc (s : State) (a b : Byte) :
    (s.skipIf (a != b)).pc = if a.toNat = b.toNat then s.pc else s.pc + 2 := by
  simp [BitVec.toNat_inj]

/-- Settles O22: both are skips on the comparison of Vx with kk, and a skip moves pc alone. -/
theorem immediateSkips : Obligations.ImmediateSkips := fun x kk s =>
  ⟨⟨_, exec_seImm x kk s, s.skipIf_beq_pc (s.getV x) kk, s.skipIf_frame _⟩,
    ⟨_, exec_sneImm x kk s, s.skipIf_bne_pc (s.getV x) kk, s.skipIf_frame _⟩⟩

/-- Settles O23: both are skips on the comparison of Vx with Vy, and a skip moves pc alone. -/
theorem registerSkips : Obligations.RegisterSkips := fun x y s =>
  ⟨⟨_, exec_seReg x y s, s.skipIf_beq_pc (s.getV x) (s.getV y), s.skipIf_frame _⟩,
    ⟨_, exec_sneReg x y s, s.skipIf_bne_pc (s.getV x) (s.getV y), s.skipIf_frame _⟩⟩

end Sys2Proof.Machine
end

section
/-! SUPPORT. Proofs about the ALU (43_alu.md). -/

namespace Sys2Proof.Machine

/-! ## What the loads and ADD Vx, kk do (R202 to R204): one register write -/

theorem exec_ldImm (x : Reg) (kk : Byte) (s : State) : exec (.ldImm x kk) s = .next (s.setV x kk) := rfl

theorem exec_ldReg (x y : Reg) (s : State) : exec (.ldReg x y) s = .next (s.setV x (s.getV y)) := rfl

theorem exec_addImm (x : Reg) (kk : Byte) (s : State) :
    exec (.addImm x kk) s = .next (s.setV x (s.getV x + kk)) := rfl

/-- Settles O24: both are a write of Vx, which reads back as written and changes nothing else. -/
theorem loadsWriteTheRegister : Obligations.LoadsWriteTheRegister := fun x y kk s =>
  ⟨⟨_, exec_ldImm x kk s, s.getV_setV_same x kk, s.setV_pc x kk, s.setV_frame x kk⟩,
    ⟨_, exec_ldReg x y s, s.getV_setV_same x (s.getV y), s.setV_pc x (s.getV y), s.setV_frame x (s.getV y)⟩⟩

/-- Settles O25: the sum of two bytes is the sum of their numbers modulo 256, and writing it changes Vx alone. -/
theorem addImmediateWrapsWithoutFlag : Obligations.AddImmediateWrapsWithoutFlag := by
  intro x kk s
  have hsum : ((s.setV x (s.getV x + kk)).getV x).toNat = ((s.getV x).toNat + kk.toNat) % 256 := by
    rw [State.getV_setV_same, BitVec.toNat_add]
  exact ⟨_, exec_addImm x kk s, hsum, s.setV_pc x _, s.setV_frame x _⟩

end Sys2Proof.Machine
end

section
/-! SUPPORT. Proofs about the index register and memory transfers (44_index_memory.md). -/

namespace Sys2Proof.Machine

/-- What LD I does (R241). -/
theorem exec_ldI (nnn : Addr12) (s : State) : exec (.ldI nnn) s = .next (s.setI (zext16 nnn)) := rfl

/-- A write of I changes the index register alone. -/
theorem State.setI_frame (s : State) (value : Word) : Frame [] [.index] s (s.setI value) :=
  Frame.intro (fun r _ => s.getV_setI value r) (fun h => absurd (List.mem_singleton.mpr rfl) h) (fun _ => ⟨rfl, rfl⟩)
    (fun _ => rfl) (fun _ => rfl) (fun _ => rfl) (fun _ => rfl) (fun _ _ => rfl) (fun _ => rfl) (fun _ => rfl)
    (fun _ => ⟨rfl, rfl⟩)

/-- Settles O32: the state after LD I differs in I alone, and zero extension keeps the address's number. -/
theorem indexLoadsTheAddress : Obligations.IndexLoadsTheAddress := fun nnn s =>
  ⟨_, exec_ldI nnn s, zext16_toNat nnn, s.setI_pc (zext16 nnn), s.setI_frame (zext16 nnn)⟩

end Sys2Proof.Machine
end

section
/-! SUPPORT. Proofs about the timer moves (46_timers.md). -/

namespace Sys2Proof.Machine

/-! ## What the three moves do (R291 to R293) -/

theorem exec_ldVxDt (x : Reg) (s : State) : exec (.ldVxDt x) s = .next (s.setV x s.dt) := rfl

theorem exec_ldDtVx (x : Reg) (s : State) : exec (.ldDtVx x) s = .next { s with dt := s.getV x } := rfl

theorem exec_ldStVx (x : Reg) (s : State) : exec (.ldStVx x) s = .next { s with st := s.getV x } := rfl

/-- A write of DT changes the delay timer alone. -/
theorem State.withDt_frame (s : State) (byte : Byte) : Frame [] [.delayTimer] s { s with dt := byte } :=
  Frame.intro (fun _ _ => rfl) (fun _ => rfl) (fun _ => ⟨rfl, rfl⟩) (fun h => absurd (List.mem_singleton.mpr rfl) h)
    (fun _ => rfl) (fun _ => rfl) (fun _ => rfl) (fun _ _ => rfl) (fun _ => rfl) (fun _ => rfl) (fun _ => ⟨rfl, rfl⟩)

/-- A write of ST changes the sound timer alone; the answer, which holds the notification (log 3), is kept with the
rest. -/
theorem State.withSt_frame (s : State) (byte : Byte) : Frame [] [.soundTimer] s { s with st := byte } :=
  Frame.intro (fun _ _ => rfl) (fun _ => rfl) (fun _ => ⟨rfl, rfl⟩) (fun _ => rfl)
    (fun h => absurd (List.mem_singleton.mpr rfl) h) (fun _ => rfl) (fun _ => rfl) (fun _ _ => rfl) (fun _ => rfl)
    (fun _ => rfl) (fun _ => ⟨rfl, rfl⟩)

/-- Settles O43: the first move is a write of Vx, the others are a write of one timer alone. -/
theorem timerMoves : Obligations.TimerMoves := fun x s =>
  ⟨⟨_, exec_ldVxDt x s, s.getV_setV_same x s.dt, s.setV_pc x s.dt, s.setV_frame x s.dt⟩,
    ⟨_, exec_ldDtVx x s, rfl, rfl, s.withDt_frame (s.getV x)⟩,
    ⟨_, exec_ldStVx x s, rfl, rfl, s.withSt_frame (s.getV x)⟩⟩

end Sys2Proof.Machine
end

section
/-! SUPPORT. Proofs about the decoder and the encoder together (30_encoding.md sections 1, 3, 4 and 6). -/

namespace Sys2Proof

/-! ## From an instruction to its word and back (R101, R105) -/

/-- Settles O1: each format's word gives back its fields, and the group and the selector lead to the row. -/
theorem decodeOfEncodeIsTheInstruction : Obligations.DecodeOfEncodeIsTheInstruction := by
  intro i
  cases i with
  | cls | ret => rfl
  | jp | call | ldI | jpV0 => simp [encode, decodeWord, decodeWordWith]
  | seImm | sneImm | ldImm | addImm | rnd => simp [encode, decodeWord, decodeWordWith]
  | seReg | sneReg => simp [encode, decodeWord, decodeWordWith, decodeXy0]
  | ldReg | orReg | andReg | xorReg | addReg | sub | shr | subn | shl =>
    simp [encode, decodeWord, decodeWordWith, decodeGroup8]
  | drw => simp [encode, decodeWord, decodeWordWith]
  | skp | sknp => simp [encode, decodeWord, decodeWordWith, decodeGroupE]
  | ldVxDt | ldVxK | ldDtVx | ldStVx | addI | ldF | ldB | ldMemVx | ldVxMem =>
    simp [encode, decodeWord, decodeWordWith, decodeGroupF]

/-! ## From a word to its instruction and back (R104, R107): group by group -/

/-- What the decoder answers for a word: an instruction whose word it is, or a rejection that names the word. -/
def DecodesTo (w : Word) (answer : Except DecodeError Instr) : Prop :=
  (∃ i, answer = .ok i ∧ encode i = w) ∨ answer = .error (.unknownOpcode w)

theorem DecodesTo.ok {w : Word} {i : Instr} (h : encode i = w) : DecodesTo w (.ok i) := .inl ⟨i, rfl, h⟩

theorem DecodesTo.unknown (w : Word) : DecodesTo w (.error (.unknownOpcode w)) := .inr rfl

section
variable {w : Word} {g : BitVec 4}

theorem wordN_of_group (h : fieldGroup w = g) : wordN g (fieldNnn w) = w := h ▸ wordN_of_fields w

theorem wordXK_of_group (h : fieldGroup w = g) : wordXK g (fieldX w) (fieldKk w) = w := h ▸ wordXK_of_fields w

theorem wordXK_of_group_kk {kk : Byte} (h : fieldGroup w = g) (hk : fieldKk w = kk) : wordXK g (fieldX w) kk = w :=
  hk ▸ wordXK_of_group h

theorem wordXY_of_group (h : fieldGroup w = g) : wordXY g (fieldX w) (fieldY w) (fieldS w) = w := h ▸ wordXY_of_fields w

theorem wordXY_of_group_s {s : BitVec 4} (h : fieldGroup w = g) (hs : fieldS w = s) :
    wordXY g (fieldX w) (fieldY w) s = w :=
  hs ▸ wordXY_of_group h

theorem wordXY_of_group_n (h : fieldGroup w = g) : wordXY g (fieldX w) (fieldY w) (nibble (fieldN w)) = w :=
  (nibble_fieldN w).symm ▸ wordXY_of_group h

end

theorem decodeGroup0_decodesTo (w : Word) : DecodesTo w (decodeGroup0 w) := by
  unfold decodeGroup0
  split
  · next h => exact .ok h.symm
  · split
    · next h => exact .ok h.symm
    · exact .unknown w

theorem decodeXy0_decodesTo {w : Word} {i : Reg → Reg → Instr}
    (h : fieldS w = 0 → encode (i (fieldX w) (fieldY w)) = w) : DecodesTo w (decodeXy0 true w i) := by
  unfold decodeXy0
  split
  · next hs => exact .ok (h (by simpa using hs))
  · exact .unknown w

theorem decodeGroup8_decodesTo {w : Word} (h : fieldGroup w = 0x8) : DecodesTo w (decodeGroup8 w) := by
  unfold decodeGroup8
  split
  case h_10 => exact .unknown w
  all_goals exact .ok (wordXY_of_group_s h ‹_›)

theorem decodeGroupE_decodesTo {w : Word} (h : fieldGroup w = 0xE) : DecodesTo w (decodeGroupE w) := by
  unfold decodeGroupE
  split
  case h_3 => exact .unknown w
  all_goals exact .ok (wordXK_of_group_kk h ‹_›)

theorem decodeGroupF_decodesTo {w : Word} (h : fieldGroup w = 0xF) : DecodesTo w (decodeGroupF w) := by
  unfold decodeGroupF
  split
  case h_10 => exact .unknown w
  all_goals exact .ok (wordXK_of_group_kk h ‹_›)

/-- The sixteenth group is what is left of the four bits. -/
theorem group_eq_F (g : BitVec 4) (h0 : g ≠ 0x0) (h1 : g ≠ 0x1) (h2 : g ≠ 0x2) (h3 : g ≠ 0x3) (h4 : g ≠ 0x4)
    (h5 : g ≠ 0x5) (h6 : g ≠ 0x6) (h7 : g ≠ 0x7) (h8 : g ≠ 0x8) (h9 : g ≠ 0x9) (hA : g ≠ 0xA) (hB : g ≠ 0xB)
    (hC : g ≠ 0xC) (hD : g ≠ 0xD) (hE : g ≠ 0xE) : g = 0xF := by
  bv_omega

theorem decodeWord_decodesTo (w : Word) : DecodesTo w (decodeWord w) := by
  unfold decodeWord decodeWordWith
  split
  case h_1 => exact decodeGroup0_decodesTo w
  case h_2 h | h_3 h | h_11 h | h_12 h => exact .ok (wordN_of_group h)
  case h_4 h | h_5 h | h_7 h | h_8 h | h_13 h => exact .ok (wordXK_of_group h)
  case h_6 h | h_10 h => exact decodeXy0_decodesTo (wordXY_of_group_s h)
  case h_9 h => exact decodeGroup8_decodesTo h
  case h_14 h => exact .ok (wordXY_of_group_n h)
  case h_15 h => exact decodeGroupE_decodesTo h
  case h_16 => exact decodeGroupF_decodesTo (group_eq_F _ ‹_› ‹_› ‹_› ‹_› ‹_› ‹_› ‹_› ‹_› ‹_› ‹_› ‹_› ‹_› ‹_› ‹_› ‹_›)

/-- Settles O2: an accepted word is not rejected, so it is the word of the instruction given. -/
theorem encodeOfDecodeIsTheWord : Obligations.EncodeOfDecodeIsTheWord := by
  intro w i h
  obtain ⟨j, hj, hw⟩ | hrej := decodeWord_decodesTo w
  · rw [h] at hj
    cases hj
    exact hw
  · rw [h] at hrej
    cases hrej

/-! ## The opcode map (R105, R106) -/

/-- Every word with the row's fixed bits is the word of an instruction. -/
def OpcodeRow.Covered (r : OpcodeRow) : Prop := ∀ w : Word, w &&& r.mask = r.bits → ∃ i, encode i = w

theorem OpcodeRow.covered_full {name : String} {bits : Word} {i : Instr} (h : encode i = bits) :
    OpcodeRow.Covered ⟨name, 0xFFFF, bits⟩ := fun _ hw => ⟨i, h.trans (hw.symm.trans BitVec.and_allOnes)⟩

theorem OpcodeRow.covered_N {name : String} (g : BitVec 4) {i : Addr12 → Instr}
    (h : ∀ nnn, encode (i nnn) = wordN g nnn) : OpcodeRow.Covered ⟨name, 0xF000, wordN g 0⟩ := fun w hw =>
  ⟨i (fieldNnn w), (h _).trans (wordN_of_group (group_of_and g hw))⟩

theorem OpcodeRow.covered_XK {name : String} (g : BitVec 4) {i : Reg → Byte → Instr}
    (h : ∀ x kk, encode (i x kk) = wordXK g x kk) : OpcodeRow.Covered ⟨name, 0xF000, wordN g 0⟩ := fun w hw =>
  ⟨i (fieldX w) (fieldKk w), (h _ _).trans (wordXK_of_group (group_of_and g hw))⟩

theorem OpcodeRow.covered_XYN {name : String} (g : BitVec 4) {i : Reg → Reg → RowCount → Instr}
    (h : ∀ x y n, encode (i x y n) = wordXY g x y (nibble n)) : OpcodeRow.Covered ⟨name, 0xF000, wordN g 0⟩ :=
  fun w hw => ⟨i (fieldX w) (fieldY w) (fieldN w), (h _ _ _).trans (wordXY_of_group_n (group_of_and g hw))⟩

theorem OpcodeRow.covered_XYS {name : String} (g s : BitVec 4) {i : Reg → Reg → Instr}
    (h : ∀ x y, encode (i x y) = wordXY g x y s) : OpcodeRow.Covered ⟨name, 0xF00F, wordXY g 0 0 s⟩ := fun w hw =>
  have ⟨hg, hs⟩ := group_s_of_and g s hw
  ⟨i (fieldX w) (fieldY w), (h _ _).trans (wordXY_of_group_s hg hs)⟩

theorem OpcodeRow.covered_XS {name : String} (g : BitVec 4) (kk : Byte) {i : Reg → Instr}
    (h : ∀ x, encode (i x) = wordXK g x kk) : OpcodeRow.Covered ⟨name, 0xF0FF, wordXK g 0 kk⟩ := fun w hw =>
  have ⟨hg, hk⟩ := group_kk_of_and g kk hw
  ⟨i (fieldX w), (h _).trans (wordXK_of_group_kk hg hk)⟩

open OpcodeRow in
theorem opcodeRows1_covered : ∀ r ∈ opcodeRows1 true, r.Covered := by
  simp only [opcodeRows1, xy0Mask, if_true, List.forall_mem_cons]
  exact ⟨covered_full (i := .cls) rfl, covered_full (i := .ret) rfl,
    covered_N 0x1 (i := .jp) fun _ => rfl, covered_N 0x2 (i := .call) fun _ => rfl,
    covered_XK 0x3 (i := .seImm) fun _ _ => rfl, covered_XK 0x4 (i := .sneImm) fun _ _ => rfl,
    covered_XYS 0x5 0x0 (i := .seReg) fun _ _ => rfl, covered_XK 0x6 (i := .ldImm) fun _ _ => rfl,
    covered_XK 0x7 (i := .addImm) fun _ _ => rfl, List.forall_mem_nil _⟩

open OpcodeRow in
theorem opcodeRows2_covered : ∀ r ∈ opcodeRows2, r.Covered := by
  simp only [opcodeRows2, List.forall_mem_cons]
  exact ⟨covered_XYS 0x8 0x0 (i := .ldReg) fun _ _ => rfl, covered_XYS 0x8 0x1 (i := .orReg) fun _ _ => rfl,
    covered_XYS 0x8 0x2 (i := .andReg) fun _ _ => rfl, covered_XYS 0x8 0x3 (i := .xorReg) fun _ _ => rfl,
    covered_XYS 0x8 0x4 (i := .addReg) fun _ _ => rfl, covered_XYS 0x8 0x5 (i := .sub) fun _ _ => rfl,
    covered_XYS 0x8 0x6 (i := .shr) fun _ _ => rfl, covered_XYS 0x8 0x7 (i := .subn) fun _ _ => rfl,
    covered_XYS 0x8 0xE (i := .shl) fun _ _ => rfl, List.forall_mem_nil _⟩

open OpcodeRow in
theorem opcodeRows3_covered : ∀ r ∈ opcodeRows3 true, r.Covered := by
  simp only [opcodeRows3, xy0Mask, if_true, List.forall_mem_cons]
  exact ⟨covered_XYS 0x9 0x0 (i := .sneReg) fun _ _ => rfl, covered_N 0xA (i := .ldI) fun _ => rfl,
    covered_N 0xB (i := .jpV0) fun _ => rfl, covered_XK 0xC (i := .rnd) fun _ _ => rfl,
    covered_XYN 0xD (i := .drw) fun _ _ _ => rfl, covered_XS 0xE 0x9E (i := .skp) fun _ => rfl,
    covered_XS 0xE 0xA1 (i := .sknp) fun _ => rfl, List.forall_mem_nil _⟩

open OpcodeRow in
theorem opcodeRows4_covered : ∀ r ∈ opcodeRows4, r.Covered := by
  simp only [opcodeRows4, List.forall_mem_cons]
  exact ⟨covered_XS 0xF 0x07 (i := .ldVxDt) fun _ => rfl, covered_XS 0xF 0x0A (i := .ldVxK) fun _ => rfl,
    covered_XS 0xF 0x15 (i := .ldDtVx) fun _ => rfl, covered_XS 0xF 0x18 (i := .ldStVx) fun _ => rfl,
    covered_XS 0xF 0x1E (i := .addI) fun _ => rfl, covered_XS 0xF 0x29 (i := .ldF) fun _ => rfl,
    covered_XS 0xF 0x33 (i := .ldB) fun _ => rfl, covered_XS 0xF 0x55 (i := .ldMemVx) fun _ => rfl,
    covered_XS 0xF 0x65 (i := .ldVxMem) fun _ => rfl, List.forall_mem_nil _⟩

theorem opcodeTable_covered : ∀ r ∈ opcodeTable true, r.Covered := by
  simp only [opcodeTable, List.forall_mem_append]
  exact ⟨⟨⟨opcodeRows1_covered, opcodeRows2_covered⟩, opcodeRows3_covered⟩, opcodeRows4_covered⟩

/-- The word of every instruction matches the row that bears its name (R105). -/
theorem encode_fits_its_row (i : Instr) :
    ∃ r ∈ opcodeTable true, r.name = i.mnemonic ∧ r.fits (encode i) = true := by
  open Laws.RowFits in
  cases i with
  | cls => exact cls
  | ret => exact ret
  | jp nnn => exact jp nnn
  | call nnn => exact call nnn
  | seImm x kk => exact seImm x kk
  | sneImm x kk => exact sneImm x kk
  | seReg x y => exact seReg x y
  | ldImm x kk => exact ldImm x kk
  | addImm x kk => exact addImm x kk
  | ldReg x y => exact ldReg x y
  | orReg x y => exact orReg x y
  | andReg x y => exact andReg x y
  | xorReg x y => exact xorReg x y
  | addReg x y => exact addReg x y
  | sub x y => exact sub x y
  | shr x y => exact shr x y
  | subn x y => exact subn x y
  | shl x y => exact shl x y
  | sneReg x y => exact sneReg x y
  | ldI nnn => exact ldI nnn
  | jpV0 nnn => exact jpV0 nnn
  | rnd x kk => exact rnd x kk
  | drw x y n => exact drw x y n
  | skp x => exact skp x
  | sknp x => exact sknp x
  | ldVxDt x => exact ldVxDt x
  | ldVxK x => exact ldVxK x
  | ldDtVx x => exact ldDtVx x
  | ldStVx x => exact ldStVx x
  | addI x => exact addI x
  | ldF x => exact ldF x
  | ldB x => exact ldB x
  | ldMemVx x => exact ldMemVx x
  | ldVxMem x => exact ldVxMem x

/-- The words that match a row are exactly the words of the instructions (R105, R106). -/
theorem wordWellFormed_iff (w : Word) : wordWellFormed true w = true ↔ ∃ i, encode i = w := by
  constructor
  · intro h
    obtain ⟨r, hr, hfits⟩ := List.any_eq_true.mp h
    exact opcodeTable_covered r hr w (beq_iff_eq.mp hfits)
  · rintro ⟨i, rfl⟩
    obtain ⟨r, hr, -, hfits⟩ := encode_fits_its_row i
    exact List.any_eq_true.mpr ⟨r, hr, hfits⟩

/-- A word that matches no row is rejected by name (R104, R106). -/
theorem decodeWord_of_illegal {w : Word} (h : wordWellFormed true w = false) :
    decodeWord w = .error (.unknownOpcode w) := by
  obtain ⟨i, -, hw⟩ | hrej := decodeWord_decodesTo w
  · rw [(wordWellFormed_iff w).mpr ⟨i, hw⟩] at h
    cases h
  · exact hrej

/-- Settles O3: a word that matches a row is an instruction's, whose decoding and whose row are known. -/
theorem decoderAcceptsExactlyTheOpcodeMap : Obligations.DecoderAcceptsExactlyTheOpcodeMap := by
  refine fun w => ⟨fun h => ?_, decodeWord_of_illegal⟩
  obtain ⟨i, rfl⟩ := (wordWellFormed_iff w).mp h
  exact ⟨i, decodeOfEncodeIsTheInstruction i, encode_fits_its_row i⟩

/-! ## STRICT_DECODE = false (R116), and sample words -/

/-- Settles O4: STRICT_DECODE is read in groups 5 and 9 alone, where false accepts every selector. -/
theorem laxDecodeChangesGroups5And9Only : Obligations.LaxDecodeChangesGroups5And9Only := by
  refine fun w => ⟨fun h => ?_, fun h => ?_, fun h5 h9 => ?_⟩
  · simp [decodeWordWith, h, decodeXy0]
  · simp [decodeWordWith, h, decodeXy0]
  · unfold decodeWordWith
    split
    case h_6 h => exact absurd h h5
    case h_10 h => exact absurd h h9
    all_goals rfl

/-- Settles O6: the decoder evaluated on the ten words. -/
theorem sampleWordsDecode : Obligations.SampleWordsDecode := by
  unfold Obligations.SampleWordsDecode
  decide

end Sys2Proof
end

section
/-! SUPPORT. Frames put together, and the frames of the updates no file before this one speaks of. -/

namespace Sys2Proof.Machine

/-! ## Frames put together -/

theorem Frame.refl (regs : List Reg) (parts : List Part) (s : State) : Frame regs parts s s :=
  Frame.intro (fun _ _ => rfl) (fun _ => rfl) (fun _ => ⟨rfl, rfl⟩) (fun _ => rfl) (fun _ => rfl) (fun _ => rfl)
    (fun _ => rfl) (fun _ _ => rfl) (fun _ => rfl) (fun _ => rfl) (fun _ => ⟨rfl, rfl⟩)

/-- What writes no register has the frame of any. -/
theorem Frame.of_no_regs {regs : List Reg} {parts : List Part} {s t : State} (h : Frame [] parts s t) :
    Frame regs parts s t :=
  h.mono (fun _ hr => absurd hr List.not_mem_nil) fun _ hp => hp

/-- What writes nothing but pc has every frame. -/
theorem Frame.of_nothing {regs : List Reg} {parts : List Part} {s t : State} (h : Frame [] [] s t) :
    Frame regs parts s t :=
  h.of_no_regs.mono (fun _ hr => hr) fun _ hp => absurd hp List.not_mem_nil

/-- A frame admits a further write of one of its registers. -/
theorem Frame.setV {regs : List Reg} {parts : List Part} {s t : State} (h : Frame regs parts s t) {x : Reg}
    (hx : x ∈ regs) (byte : Byte) : Frame regs parts s (t.setV x byte) :=
  h.trans ((t.setV_frame x byte).mono (fun _ hr => List.mem_singleton.mp hr ▸ hx) fun _ hp => absurd hp List.not_mem_nil)

/-- Frames of two changes in a row, within a wider one. -/
theorem Frame.comp {parts parts' wider : List Part} {s t u : State} (h1 : Frame [] parts s t) (h2 : Frame [] parts' t u)
    (hp : parts ⊆ wider) (hp' : parts' ⊆ wider) : Frame [] wider s u :=
  (h1.mono (fun _ hr => hr) hp).trans (h2.mono (fun _ hr => hr) hp')

/-- What differs in the general registers alone has the frame of the registers that differ. -/
theorem Frame.of_v {regs : List Reg} {s t : State} (ht : t = { s with v := t.v })
    (hv : ∀ r, r ∉ regs → t.getV r = s.getV r) : Frame regs [] s t := by
  rw [ht]
  exact Frame.intro (fun r hr => (State.getV_congr rfl r).trans (hv r hr)) (fun _ => rfl) (fun _ => ⟨rfl, rfl⟩)
    (fun _ => rfl) (fun _ => rfl) (fun _ => rfl) (fun _ => rfl) (fun _ _ => rfl) (fun _ => rfl) (fun _ => rfl)
    (fun _ => ⟨rfl, rfl⟩)

/-! ## One update each -/

/-- A write of the stack, its pointer and pc changes the stack and pc alone. -/
theorem State.withStack_setPc_frame (s : State) (stack : Vector Word 16) (sp : Fin 17) (target : Word) :
    Frame [] [.stack] s ({ s with stack := stack, sp := sp }.setPc target) :=
  Frame.intro (fun _ _ => rfl) (fun _ => rfl) (fun h => absurd (List.mem_singleton.mpr rfl) h) (fun _ => rfl)
    (fun _ => rfl) (fun _ => rfl) (fun _ => rfl) (fun _ _ => rfl) (fun _ => rfl) (fun _ => rfl) (fun _ => ⟨rfl, rfl⟩)

/-- A write of memory changes memory alone. -/
theorem State.withMem_frame (s : State) (m : Memory) : Frame [] [.memory] s { s with mem := m } :=
  Frame.intro (fun _ _ => rfl) (fun _ => rfl) (fun _ => ⟨rfl, rfl⟩) (fun _ => rfl) (fun _ => rfl) (fun _ => rfl)
    (fun _ => rfl) (fun h => absurd (List.mem_singleton.mpr rfl) h) (fun _ => rfl) (fun _ => rfl) (fun _ => ⟨rfl, rfl⟩)

/-- A draw advances the random source alone. -/
theorem State.withRng_frame (s : State) (rng : Nat) : Frame [] [.random] s { s with rng := rng } :=
  Frame.intro (fun _ _ => rfl) (fun _ => rfl) (fun _ => ⟨rfl, rfl⟩) (fun _ => rfl) (fun _ => rfl) (fun _ => rfl)
    (fun _ => rfl) (fun _ _ => rfl) (fun h => absurd (List.mem_singleton.mpr rfl) h) (fun _ => rfl)
    (fun _ => ⟨rfl, rfl⟩)

theorem State.withKeys_frame (s : State) (keys : BitVec 16) : Frame [] [.keypad] s { s with keys := keys } :=
  Frame.intro (fun _ _ => rfl) (fun _ => rfl) (fun _ => ⟨rfl, rfl⟩) (fun _ => rfl) (fun _ => rfl)
    (fun h => absurd (List.mem_singleton.mpr rfl) h) (fun _ => rfl) (fun _ _ => rfl) (fun _ => rfl) (fun _ => rfl)
    (fun _ => ⟨rfl, rfl⟩)

theorem State.withRequests_frame (s : State) (requests : List Transaction) :
    Frame [] [.host] s { s with requests := requests } :=
  Frame.intro (fun _ _ => rfl) (fun _ => rfl) (fun _ => ⟨rfl, rfl⟩) (fun _ => rfl) (fun _ => rfl) (fun _ => rfl)
    (fun _ => rfl) (fun _ _ => rfl) (fun _ => rfl) (fun _ => rfl) (fun h => absurd (List.mem_singleton.mpr rfl) h)

theorem State.respond_frame (s : State) (r : Response) : Frame [] [.host] s (s.respond r) :=
  Frame.intro (fun _ _ => rfl) (fun _ => rfl) (fun _ => ⟨rfl, rfl⟩) (fun _ => rfl) (fun _ => rfl) (fun _ => rfl)
    (fun _ => rfl) (fun _ _ => rfl) (fun _ => rfl) (fun _ => rfl) (fun h => absurd (List.mem_singleton.mpr rfl) h)

end Sys2Proof.Machine
end

section
/-! SUPPORT. What each instruction's execution answers, by the case its rule distinguishes (41_control_flow.md, 43_alu.md,
44_index_memory.md, 45_keypad.md), for the instructions no file before this one speaks of. -/

namespace Sys2Proof.Machine

/-! ## Control flow (R161, R163, R164) -/

theorem exec_ret_of_pos (s : State) (h : 0 < s.sp.val) (hlt : s.sp.val - 1 < 16) (hlt' : s.sp.val - 1 < 17) :
    exec .ret s = .next ({ s with sp := ⟨s.sp.val - 1, hlt'⟩ }.setPc s.stack[s.sp.val - 1]) := by
  simp only [exec, execRet, s.pop_of_pos h hlt hlt']

theorem exec_ret_of_empty (s : State) (h : s.sp.val = 0) :
    exec .ret s = .next (s.takeFault .stackUnderflow (encode .ret) (s.pc - 2)) := by
  simp only [exec, execRet, s.pop_of_empty h, State.raise]

theorem exec_call_of_lt (nnn : Addr12) (s : State) (h : s.sp.val < 16) :
    exec (.call nnn) s = .next ({ s with stack := s.stack.set s.sp.val s.pc h,
                                         sp := ⟨s.sp.val + 1, Nat.succ_lt_succ h⟩ }.setPc (zext16 nnn)) := by
  simp only [exec, execCall, s.push_of_lt s.pc h]

theorem exec_call_of_full (nnn : Addr12) (s : State) (h : s.sp.val = 16) :
    exec (.call nnn) s = .next (s.takeFault .stackOverflow (encode (.call nnn)) (s.pc - 2)) := by
  simp only [exec, execCall, s.push_of_full s.pc h, State.raise]

theorem exec_jpV0 (nnn : Addr12) (s : State) :
    exec (.jpV0 nnn) s = .next (s.setPc (indexedTarget nnn (s.getV 0))) := rfl

/-! ## ALU (R205 to R214) -/

theorem exec_orReg (x y : Reg) (s : State) : exec (.orReg x y) s = .next (s.setV x (s.getV x ||| s.getV y)) := rfl

theorem exec_andReg (x y : Reg) (s : State) : exec (.andReg x y) s = .next (s.setV x (s.getV x &&& s.getV y)) := rfl

theorem exec_xorReg (x y : Reg) (s : State) : exec (.xorReg x y) s = .next (s.setV x (s.getV x ^^^ s.getV y)) := rfl

theorem exec_addReg (x y : Reg) (s : State) :
    exec (.addReg x y) s =
      .next ((s.setV x (s.getV x + s.getV y)).setV VF (carryFlag (s.getV x) (s.getV y))) := rfl

/-- The flag is written to VF, and then Vx gets a byte computed on the registers as the flag write left them (R210). -/
def State.flagThenSetV (s : State) (flag : Byte) (x : Reg) (value : State → Byte) : State :=
  (s.setV VF flag).setV x (value (s.setV VF flag))

theorem exec_sub (x y : Reg) (s : State) :
    exec (.sub x y) s =
      .next (s.flagThenSetV (noBorrowFlag (s.getV x) (s.getV y)) x fun f => f.getV x - f.getV y) := rfl

theorem exec_subn (x y : Reg) (s : State) :
    exec (.subn x y) s =
      .next (s.flagThenSetV (noBorrowFlag (s.getV y) (s.getV x)) x fun f => f.getV y - f.getV x) := rfl

theorem exec_shr (x y : Reg) (s : State) :
    exec (.shr x y) s = .next (s.flagThenSetV (shiftOutLow (s.getV x)) x fun f => f.getV x >>> 1) := rfl

theorem exec_shl (x y : Reg) (s : State) :
    exec (.shl x y) s = .next (s.flagThenSetV (shiftOutHigh (s.getV x)) x fun f => f.getV x <<< 1) := rfl

theorem exec_rnd (x : Reg) (kk : Byte) (s : State) :
    exec (.rnd x kk) s = .next ({ s with rng := s.rng + 1 }.setV x (Config.randByte s.rng &&& kk)) := rfl

/-! ## Index register (R242, R243) -/

theorem exec_addI (x : Reg) (s : State) : exec (.addI x) s = .next (s.setI (s.i + (s.getV x).setWidth 16)) := rfl

theorem exec_ldF (x : Reg) (s : State) : exec (.ldF x) s = .next (s.setI (glyphAddr (s.getV x))) := rfl

/-! ## Bytes at I: the sprite and the register block (R142, R246) -/

/-- The bytes at I, I + 1, ..., as many as the count says. -/
def State.bytesAtIndex (s : State) (count : Nat) : List Byte :=
  (List.range count).map fun k => Memory.lookup s.mem (s.indexAddr k)

@[simp] theorem State.bytesAtIndex_length (s : State) (count : Nat) : (s.bytesAtIndex count).length = count := by
  simp [bytesAtIndex]

theorem State.bytesAtIndex_getD (s : State) {count k : Nat} (h : k < count) :
    (s.bytesAtIndex count).getD k 0 = Memory.lookup s.mem (s.indexAddr k) := by
  simp [bytesAtIndex, h]

theorem State.readBytes_of_fits (s : State) {count : Nat} (h : count = 0 ∨ s.indexAddr count ≤ 0x1000) :
    s.mem.readBytes (s.indexAddr 0) count = some (s.bytesAtIndex count) := by
  rw [Memory.readBytes_eq]
  exact if_pos h

theorem State.readBytes_of_beyond (s : State) {count : Nat} (h0 : 0 < count) (h : 0x1000 < s.indexAddr count) :
    s.mem.readBytes (s.indexAddr 0) count = none := by
  have hbeyond : ¬(count = 0 ∨ s.indexAddr count ≤ 0x1000) := by omega
  rw [Memory.readBytes_eq]
  exact if_neg hbeyond

/-- The canvas after a draw of the n bytes at I at column Vx mod 64 and row Vy mod 32 (R142). -/
def State.drawn (s : State) (x y : Reg) (n : RowCount) : Canvas :=
  drawSprite Config.drawEdge (startColumn (s.getV x)) (startRow (s.getV y)) (s.bytesAtIndex n.val) s.fb

theorem exec_drw_of_fits (x y : Reg) (n : RowCount) (s : State) (h : n.val = 0 ∨ s.indexAddr n.val ≤ 0x1000) :
    exec (.drw x y n) s =
      .next ({ s with fb := (s.drawn x y n).fb }.setV VF (collisionFlag (s.drawn x y n))) := by
  simp only [exec, execDrw, s.readBytes_of_fits h, State.drawn]

theorem exec_drw_of_beyond (x y : Reg) (n : RowCount) (s : State) (h0 : 0 < n.val) (h : 0x1000 < s.indexAddr n.val) :
    exec (.drw x y n) s = .next (s.takeFault .memoryRange (encode (.drw x y n)) (s.pc - 2)) := by
  simp only [exec, execDrw, s.readBytes_of_beyond h0 h, State.raise]

theorem exec_ldVxMem_of_fits (x : Reg) (s : State) (h : s.indexAddr x.val ≤ 0xFFF) :
    exec (.ldVxMem x) s = .next (s.setVs 0 (s.bytesAtIndex (x.val + 1))) := by
  have hfits : s.indexAddr (x.val + 1) ≤ 0x1000 := Nat.succ_le_succ h
  simp only [exec, execLdVxMem, s.readBytes_of_fits (.inr hfits)]

theorem exec_ldVxMem_of_beyond (x : Reg) (s : State) (h : 0xFFF < s.indexAddr x.val) :
    exec (.ldVxMem x) s = .next (s.takeFault .memoryRange (encode (.ldVxMem x)) (s.pc - 2)) := by
  have hbeyond : 0x1000 < s.indexAddr (x.val + 1) := Nat.succ_lt_succ h
  simp only [exec, execLdVxMem, s.readBytes_of_beyond x.val.succ_pos hbeyond, State.raise]

/-! ## Stores at I (R244, R245) -/

theorem exec_ldB_of_some {x : Reg} {s : State} {m : Memory}
    (h : s.mem.writeBytes (s.indexAddr 0) (bcdDigits (s.getV x)) = some m) :
    exec (.ldB x) s = .next { s with mem := m } := by
  simp only [exec, execLdB, h]

theorem exec_ldB_of_none {x : Reg} {s : State}
    (h : s.mem.writeBytes (s.indexAddr 0) (bcdDigits (s.getV x)) = none) :
    exec (.ldB x) s = .next (s.takeFault .memoryRange (encode (.ldB x)) (s.pc - 2)) := by
  simp only [exec, execLdB, h, State.raise]

theorem exec_ldMemVx_of_some {x : Reg} {s : State} {m : Memory}
    (h : s.mem.writeBytes (s.indexAddr 0) (s.regsUpTo x) = some m) :
    exec (.ldMemVx x) s = .next { s with mem := m } := by
  simp only [exec, execLdMemVx, h]

theorem exec_ldMemVx_of_none {x : Reg} {s : State}
    (h : s.mem.writeBytes (s.indexAddr 0) (s.regsUpTo x) = none) :
    exec (.ldMemVx x) s = .next (s.takeFault .memoryRange (encode (.ldMemVx x)) (s.pc - 2)) := by
  simp only [exec, execLdMemVx, h, State.raise]

/-! ## Keypad (R271 to R275) -/

theorem State.keyPressed_of_le (s : State) {number : Byte} (h : number.toNat ≤ 15) :
    s.keyPressed number = some (s.keys.getLsbD number.toNat) := if_pos h

theorem State.keyPressed_of_gt (s : State) {number : Byte} (h : 15 < number.toNat) : s.keyPressed number = none :=
  if_neg (Nat.not_le.mpr h)

theorem exec_skp_of_le (x : Reg) (s : State) (h : (s.getV x).toNat ≤ 15) :
    exec (.skp x) s = .next (s.skipIf (s.keys.getLsbD (s.getV x).toNat)) := by
  simp only [exec, execSkp, s.keyPressed_of_le h]

theorem exec_skp_of_gt (x : Reg) (s : State) (h : 15 < (s.getV x).toNat) :
    exec (.skp x) s = .next (s.takeFault .keyRange (encode (.skp x)) (s.pc - 2)) := by
  simp only [exec, execSkp, s.keyPressed_of_gt h, State.raise]

theorem exec_sknp_of_le (x : Reg) (s : State) (h : (s.getV x).toNat ≤ 15) :
    exec (.sknp x) s = .next (s.skipIf (!s.keys.getLsbD (s.getV x).toNat)) := by
  simp only [exec, execSknp, s.keyPressed_of_le h]

theorem exec_sknp_of_gt (x : Reg) (s : State) (h : 15 < (s.getV x).toNat) :
    exec (.sknp x) s = .next (s.takeFault .keyRange (encode (.sknp x)) (s.pc - 2)) := by
  simp only [exec, execSknp, s.keyPressed_of_gt h, State.raise]

theorem exec_ldVxK_of_some (x : Reg) {s : State} {k : Reg} (h : s.lowestKey = some k) :
    exec (.ldVxK x) s = .next (s.setV x (BitVec.ofNat 8 k.val)) := by
  simp only [exec, execLdVxK, h]

theorem exec_ldVxK_of_none (x : Reg) {s : State} (h : s.lowestKey = none) :
    exec (.ldVxK x) s = .next (s.setPc (s.pc - 2)) := by
  simp only [exec, execLdVxK, h]

end Sys2Proof.Machine
end

section
/-! SUPPORT. Proofs about the further control-flow instructions (41_control_flow.md). -/

namespace Sys2Proof.Machine

/-- Settles O17: JP V0 differs from JP in its target alone, which is the sum as an exact number. -/
theorem indexedJumpAddsV0 : Obligations.IndexedJumpAddsV0 := fun nnn s =>
  ⟨_, exec_jpV0 nnn s, indexedTarget_toNat nnn (s.getV 0), s.setPc_frame _⟩

/-- Settles O18: with room, pc goes to entry sp and no other entry changes; with none, only the record is written. -/
theorem callPushesTheReturnAddress : Obligations.CallPushesTheReturnAddress := by
  refine fun nnn s => ⟨fun h => ?room, fun h => ?full⟩
  case room =>
    have hentry : (s.stack.set s.sp.val s.pc h)[s.sp.val] = s.pc := Vector.getElem_set_self h
    have hothers (j : Fin 16) (hj : j.val ≠ s.sp.val) : (s.stack.set s.sp.val s.pc h)[j.val] = s.stack[j.val] :=
      Vector.getElem_set_ne h j.isLt (Ne.symm hj)
    exact ⟨_, exec_call_of_lt nnn s h, rfl, hentry, hothers, zext16_toNat nnn, s.withStack_setPc_frame _ _ _⟩
  case full => exact ⟨_, exec_call_of_full nnn s h, rfl, rfl, s.takeFault_frame _ _ _⟩

/-- Settles O19: with an entry, sp moves below it and pc is it; with none, only the record is written. -/
theorem returnPopsTheTopAddress : Obligations.ReturnPopsTheTopAddress := by
  refine fun s => ⟨fun h hj => ?entry, fun h => ?empty⟩
  case entry =>
    exact ⟨_, exec_ret_of_pos s h hj (by omega), rfl, rfl, rfl, s.withStack_setPc_frame s.stack _ _⟩
  case empty => exact ⟨_, exec_ret_of_empty s h, rfl, rfl, s.takeFault_frame _ _ _⟩

/-- Settles O21: the pending list is what is left after the RET and then entry sp - 1, where the RET went. -/
theorem returnResumesTheNewestCall : Obligations.ReturnResumesTheNewestCall := by
  intro s t h ht
  have hlt : s.sp.val - 1 < 16 := by omega
  rw [exec_ret_of_pos s h hlt (by omega)] at ht
  cases ht
  have hsp : s.sp.val = (s.sp.val - 1) + 1 := by omega
  calc s.pending
      = s.stack.toList.take ((s.sp.val - 1) + 1) := by rw [← hsp]; rfl
    _ = s.stack.toList.take (s.sp.val - 1) ++ [s.stack[s.sp.val - 1]] := by
        rw [List.take_succ_eq_append_getElem (by simpa using hlt), Vector.getElem_toList]

end Sys2Proof.Machine
end

section
/-! SUPPORT. Proofs about the further ALU instructions (43_alu.md). -/

namespace Sys2Proof.Machine

/-! ## Bitwise instructions (R205 to R207) -/

/-- Settles O26: each is a write of Vx, and the bits of the byte written are the bits combined. -/
theorem bitwiseInstructions : Obligations.BitwiseInstructions := by
  intro x y s
  refine ⟨⟨_, exec_orReg x y s, rfl, s.setV_frame x _, fun k => ?_⟩,
    ⟨_, exec_andReg x y s, rfl, s.setV_frame x _, fun k => ?_⟩,
    ⟨_, exec_xorReg x y s, rfl, s.setV_frame x _, fun k => ?_⟩⟩
  · rw [State.getV_setV_same, BitVec.getLsbD_or]
  · rw [State.getV_setV_same, BitVec.getLsbD_and]
  · rw [State.getV_setV_same, BitVec.getLsbD_xor]

/-! ## Two register writes, the flag's among them (R200, R210) -/

theorem State.flagThenSetV_frame (s : State) (flag : Byte) (x : Reg) (value : State → Byte) :
    Frame [x, VF] [] s (s.flagThenSetV flag x value) :=
  ((Frame.refl _ _ s).setV (by simp) flag).setV (by simp) _

theorem State.getV_flagThenSetV_same (s : State) (flag : Byte) (x : Reg) (value : State → Byte) :
    (s.flagThenSetV flag x value).getV x = value (s.setV VF flag) := getV_setV_same _ x _

theorem State.getV_flagThenSetV_VF (s : State) (flag : Byte) {x : Reg} (hx : x ≠ VF) (value : State → Byte) :
    (s.flagThenSetV flag x value).getV VF = flag := by
  rw [flagThenSetV, getV_setV_of_ne _ _ (Ne.symm hx), getV_setV_same]

theorem byte_toNat_sub (a b : Byte) : (a - b).toNat = (256 + a.toNat - b.toNat) % 256 := by
  have := b.isLt
  rw [BitVec.toNat_sub]
  omega

@[simp] theorem carryFlag_toNat (a b : Byte) : (carryFlag a b).toNat = if a.toNat + b.toNat > 255 then 1 else 0 := by
  simp [carryFlag]

@[simp] theorem noBorrowFlag_toNat (a b : Byte) : (noBorrowFlag a b).toNat = if a.toNat > b.toNat then 1 else 0 := by
  simp [noBorrowFlag]

/-! ## ADD, SUB, SUBN and the shifts -/

/-- Settles O27: VF is written last, so it holds the carry; Vx keeps the sum where it is another register. -/
theorem addSetsTheCarry : Obligations.AddSetsTheCarry := by
  refine fun x y s => ⟨_, exec_addReg x y s, ?carry, fun hx => ?sum, rfl, ?frame⟩
  case carry => rw [State.getV_setV_same, carryFlag_toNat]
  case sum => rw [State.getV_setV_of_ne _ _ hx, State.getV_setV_same, BitVec.toNat_add]
  case frame => exact ((Frame.refl _ _ s).setV (by simp) _).setV (by simp) _

/-- A difference written after the flag reads the flag where an operand is VF, and the old value elsewhere (R210). -/
theorem State.flagThenSetV_sub_toNat (s : State) (flag : Byte) (x a b : Reg) :
    ((s.flagThenSetV flag x fun f => f.getV a - f.getV b).getV x).toNat =
      (256 + (if a = VF then flag else s.getV a).toNat - (if b = VF then flag else s.getV b).toNat) % 256 := by
  rw [getV_flagThenSetV_same, byte_toNat_sub, getV_setV, getV_setV]

theorem State.flagThenSetV_sub_self (s : State) (flag : Byte) (x a : Reg) :
    ((s.flagThenSetV flag x fun f => f.getV a - f.getV a).getV x).toNat = 0 := by
  rw [getV_flagThenSetV_same, BitVec.sub_self]
  rfl

/-- Settles O28: VF holds the flag unless Vx, written after it, is VF; then it holds the difference. -/
theorem subtractInEveryForm : Obligations.SubtractInEveryForm := by
  intro x y s
  have hdiff := s.flagThenSetV_sub_toNat (noBorrowFlag (s.getV x) (s.getV y)) x x y
  refine ⟨_, exec_sub x y s, rfl, s.flagThenSetV_frame _ x _, fun hx => ?flag, fun hx hy => ?neither,
    fun hx hy => ?second, fun hx hy => ?first, fun hx hy => ?both⟩
  case flag => rw [State.getV_flagThenSetV_VF _ _ hx, noBorrowFlag_toNat]
  case neither => rw [hdiff, if_neg hx, if_neg hy]
  case second => rw [hdiff, if_neg hx, if_pos hy, noBorrowFlag_toNat]
  case first => subst hx; rw [hdiff, if_pos rfl, if_neg hy, noBorrowFlag_toNat]
  case both => subst hx hy; exact s.flagThenSetV_sub_self _ VF VF

/-- Settles O29: as SUB, with the operands exchanged in the flag and in the difference. -/
theorem reverseSubtractInEveryForm : Obligations.ReverseSubtractInEveryForm := by
  intro x y s
  have hdiff := s.flagThenSetV_sub_toNat (noBorrowFlag (s.getV y) (s.getV x)) x y x
  refine ⟨_, exec_subn x y s, rfl, s.flagThenSetV_frame _ x _, fun hx => ?flag, fun hx hy => ?neither,
    fun hx hy => ?second, fun hx hy => ?first, fun hx hy => ?both⟩
  case flag => rw [State.getV_flagThenSetV_VF _ _ hx, noBorrowFlag_toNat]
  case neither => rw [hdiff, if_neg hy, if_neg hx]
  case second => rw [hdiff, if_pos hy, if_neg hx, noBorrowFlag_toNat]
  case first => subst hx; rw [hdiff, if_neg hy, if_pos rfl, noBorrowFlag_toNat]
  case both => subst hx hy; exact s.flagThenSetV_sub_self _ VF VF

theorem byte_toNat_shiftRight_one (a : Byte) : (a >>> 1).toNat = a.toNat / 2 := by
  rw [BitVec.toNat_ushiftRight, Nat.shiftRight_eq_div_pow, pow_one]

theorem byte_toNat_shiftLeft_one (a : Byte) : (a <<< 1).toNat = a.toNat * 2 % 256 := by
  rw [BitVec.toNat_shiftLeft, Nat.shiftLeft_eq, pow_one]

/-- Settles O30: VF holds the bit shifted out unless Vx, written after it, is VF; then the flag itself is shifted. -/
theorem shiftsInEveryForm : Obligations.ShiftsInEveryForm := by
  refine fun x y s => ⟨⟨_, exec_shr x y s, rfl, s.flagThenSetV_frame _ x _, fun hx => ⟨?_, ?_⟩, fun hx => ?_⟩,
    ⟨_, exec_shl x y s, rfl, s.flagThenSetV_frame _ x _, fun hx => ⟨?_, ?_⟩, fun hx => ?_⟩⟩
  · rw [State.getV_flagThenSetV_VF _ _ hx, shiftOutLow_toNat]
  · rw [State.getV_flagThenSetV_same, State.getV_setV_of_ne _ _ hx, byte_toNat_shiftRight_one]
  · subst hx
    rw [State.getV_flagThenSetV_same, State.getV_setV_same, byte_toNat_shiftRight_one, shiftOutLow_toNat]
    omega
  · rw [State.getV_flagThenSetV_VF _ _ hx, shiftOutHigh_toNat]
  · rw [State.getV_flagThenSetV_same, State.getV_setV_of_ne _ _ hx, byte_toNat_shiftLeft_one]
  · subst hx
    have := (s.getV VF).isLt
    rw [State.getV_flagThenSetV_same, State.getV_setV_same, byte_toNat_shiftLeft_one, shiftOutHigh_toNat]
    split <;> omega

/-! ## RND (R214) -/

/-- Settles O31: a draw, and then a write of Vx whose bits are the draw's and kk's together. -/
theorem randomByteIsMasked : Obligations.RandomByteIsMasked := by
  refine fun x kk s => ⟨_, exec_rnd x kk s, fun k => ?bits, Nat.lt_succ_self _, rfl, ?frame⟩
  case bits => rw [State.getV_setV_same, BitVec.getLsbD_and]
  case frame => exact (s.withRng_frame (s.rng + 1)).of_no_regs.setV (List.mem_singleton.mpr rfl) _

end Sys2Proof.Machine
end

section
/-! SUPPORT. Proofs about the index register, stores and loads at I, and the fetch after a store (44_index_memory.md,
20_memory.md). -/

namespace Sys2Proof.Machine

/-! ## Index register (R242, R243) -/

/-- Settles O33: the sum of I and the zero-extended byte is the sum of their numbers modulo 65536. -/
theorem addToIndexWrapsAt16Bits : Obligations.AddToIndexWrapsAt16Bits := by
  intro x s
  have hsum : (s.i + (s.getV x).setWidth 16).toNat = (s.i.toNat + (s.getV x).toNat) % 65536 := by
    rw [BitVec.toNat_add, BitVec.toNat_setWidth_of_le (by decide)]
  exact ⟨_, exec_addI x s, hsum, rfl, s.setI_frame _⟩

/-- Settles O34: the glyph's address is a write of I, exact for every byte. -/
theorem fontPointerIsBasePlusFiveTimesVx : Obligations.FontPointerIsBasePlusFiveTimesVx := fun x s =>
  ⟨_, exec_ldF x s, glyphAddr_toNat (s.getV x), rfl, s.setI_frame _⟩

/-! ## Stores (R77, R240, R244, R245) -/

/-- A sequence of writes that fits: each byte at its address, every other address as it was. -/
theorem Memory.exists_writeBytes {m : Memory} {a : Nat} {bytes : List Byte} (hwf : m.wf = true)
    (h : a + bytes.length ≤ 0x1000) :
    ∃ m', m.writeBytes a bytes = some m' ∧ (∀ k (hk : k < bytes.length), m'.read (a + k) = some bytes[k]) ∧
      ∀ c, c < a ∨ a + bytes.length ≤ c → m'.read c = m.read c := by
  obtain ⟨m', hm'⟩ := Option.isSome_iff_exists.mp ((writeBytes_isSome bytes m a).mpr (.inr h))
  obtain ⟨-, hread⟩ := writeBytes_spec bytes m m' a hwf hm'
  refine ⟨m', hm', fun k hk => ?_, fun c hc => ?_⟩
  · rw [hread, dif_pos (by omega)]
    simp
  · rw [hread, dif_neg (by omega)]

/-- A sequence of writes that does not fit writes nothing (R240). -/
theorem Memory.writeBytes_of_beyond {m : Memory} {a : Nat} {bytes : List Byte} (hne : bytes ≠ [])
    (h : 0x1000 < a + bytes.length) : m.writeBytes a bytes = none := by
  have hsome := writeBytes_isSome bytes m a
  rw [← Option.not_isSome_iff_eq_none, hsome]
  rintro (hnil | hle)
  · exact hne hnil
  · omega

/-- Settles O35: the three digits are stored if they fit, and else only the record is written. -/
theorem decimalDigitsAreStored : Obligations.DecimalDigitsAreStored := by
  refine fun x s hwf => ⟨fun h => ?fits, fun h => ?beyond⟩
  case fits =>
    obtain ⟨m, hm, hin, hout⟩ := Memory.exists_writeBytes (a := s.indexAddr 0) (bytes := bcdDigits (s.getV x)) hwf
      (Nat.succ_le_succ h)
    have hv := (s.getV x).isLt
    have hdigit (k : Nat) (hk : k < 3) :
        (m.read (s.indexAddr k)).map BitVec.toNat = some (bcdDigits (s.getV x))[k].toNat :=
      congrArg (Option.map BitVec.toNat) (hin k hk)
    refine ⟨_, exec_ldB_of_some hm, (hdigit 0 (by decide)).trans ?_, (hdigit 1 (by decide)).trans ?_,
      (hdigit 2 (by decide)).trans ?_, fun a ha => hout a ha, rfl, s.withMem_frame m⟩
    all_goals
      simp only [bcdDigits, List.getElem_cons_zero, List.getElem_cons_succ, BitVec.toNat_ofNat, Option.some.injEq]
      omega
  case beyond =>
    have hm : s.mem.writeBytes (s.indexAddr 0) (bcdDigits (s.getV x)) = none :=
      Memory.writeBytes_of_beyond (List.cons_ne_nil _ _) (Nat.succ_lt_succ h)
    exact ⟨_, exec_ldB_of_none hm, rfl, rfl, s.takeFault_frame _ _ _⟩

/-- Settles O36: V0 to Vx are stored if they fit, and else only the record is written. -/
theorem registerBlockIsStored : Obligations.RegisterBlockIsStored := by
  have haddr (x : Reg) (s : State) : s.indexAddr 0 + (s.regsUpTo x).length = s.indexAddr x.val + 1 := by
    rw [State.regsUpTo_length]; rfl
  refine fun x s hwf => ⟨fun h => ?fits, fun h => ?beyond⟩
  case fits =>
    obtain ⟨m, hm, hin, hout⟩ := Memory.exists_writeBytes (a := s.indexAddr 0) (bytes := s.regsUpTo x) hwf
      (by rw [haddr]; omega)
    have hregs (j : Reg) (hj : j ≤ x) : m.read (s.indexAddr j.val) = some (s.getV j) := by
      have hlen : j.val < (s.regsUpTo x).length := by rw [State.regsUpTo_length]; exact Nat.lt_succ_of_le hj
      rw [← s.regsUpTo_getElem x j.val hlen j.isLt]
      exact hin j.val hlen
    exact ⟨_, exec_ldMemVx_of_some hm, hregs, fun a ha => hout a (by rw [haddr]; omega), rfl, s.withMem_frame m⟩
  case beyond =>
    have hne : s.regsUpTo x ≠ [] := List.ne_nil_of_length_eq_add_one (s.regsUpTo_length x)
    have hm : s.mem.writeBytes (s.indexAddr 0) (s.regsUpTo x) = none :=
      Memory.writeBytes_of_beyond hne (by rw [haddr]; omega)
    exact ⟨_, exec_ldMemVx_of_none hm, rfl, rfl, s.takeFault_frame _ _ _⟩

/-! ## Loads (R246) -/

theorem mem_allRegs_take {x j : Reg} : j ∈ allRegs.take (x.val + 1) ↔ j ≤ x := by
  revert x j
  decide

theorem State.setVs_pc (s : State) (bytes : List Byte) (r : Nat) : (s.setVs r bytes).pc = s.pc := by
  rw [setVs_eq]

theorem State.setVs_mem (s : State) (bytes : List Byte) (r : Nat) : (s.setVs r bytes).mem = s.mem := by
  rw [setVs_eq]

/-- The registers of the block get the bytes at I upwards. -/
theorem State.getV_loaded_of_le (s : State) {x j : Reg} (h : j ≤ x) :
    (s.setVs 0 (s.bytesAtIndex (x.val + 1))).getV j = Memory.lookup s.mem (s.indexAddr j.val) := by
  have hj : j.val < x.val + 1 := Nat.lt_succ_of_le h
  rw [getV_setVs, bytesAtIndex_length, if_pos (by omega)]
  exact s.bytesAtIndex_getD hj

/-- The registers above the block stay. -/
theorem State.getV_loaded_of_gt (s : State) {x j : Reg} (h : x < j) :
    (s.setVs 0 (s.bytesAtIndex (x.val + 1))).getV j = s.getV j := by
  have hj : x.val < j.val := h
  rw [getV_setVs, bytesAtIndex_length, if_neg (by omega)]

theorem State.loaded_frame (s : State) (x : Reg) :
    Frame (allRegs.take (x.val + 1)) [] s (s.setVs 0 (s.bytesAtIndex (x.val + 1))) :=
  Frame.of_v (setVs_eq _ s 0) fun _ hj => s.getV_loaded_of_gt (lt_of_not_ge fun hle => hj (mem_allRegs_take.mpr hle))

/-- Settles O37: V0 to Vx get the bytes if they all lie in memory, and else only the record is written. -/
theorem registerBlockIsLoaded : Obligations.RegisterBlockIsLoaded := by
  refine fun x s => ⟨fun h => ?fits, fun h => ?beyond⟩
  case fits =>
    have hregs (j : Reg) (hj : j ≤ x) :
        some ((s.setVs 0 (s.bytesAtIndex (x.val + 1))).getV j) = s.mem.read (s.indexAddr j.val) := by
      have haddr : s.indexAddr j.val ≤ s.indexAddr x.val := Nat.add_le_add_left hj _
      rw [s.getV_loaded_of_le hj, Memory.read_of_lt s.mem (by omega)]
    exact ⟨_, exec_ldVxMem_of_fits x s h, hregs, fun j hj => s.getV_loaded_of_gt hj, s.setVs_pc _ 0, s.loaded_frame x⟩
  case beyond => exact ⟨_, exec_ldVxMem_of_beyond x s h, rfl, rfl, s.takeFault_frame _ _ _⟩

/-- Settles O38: the load reads, at the addresses the same I gives, what the store left there. -/
theorem storeThenLoadRestoresTheRegisters : Obligations.StoreThenLoadRestoresTheRegisters := by
  intro x s hwf h
  obtain ⟨t, ht, hstored, -, -, -⟩ := (registerBlockIsStored x s hwf).1 h
  refine ⟨t, ht, fun u hi hmem => ?_⟩
  have haddr (k : Nat) : u.indexAddr k = s.indexAddr k := congrArg (·.toNat + k) hi
  have hfits : u.indexAddr x.val ≤ 0xFFF := by rw [haddr]; exact h
  refine ⟨_, exec_ldVxMem_of_fits x u hfits, fun j hj => ?_, (u.setVs_mem _ 0).trans hmem⟩
  have hj' : u.indexAddr j.val ≤ u.indexAddr x.val := Nat.add_le_add_left hj _
  have hread : u.mem.read (u.indexAddr j.val) = some (s.getV j) := by rw [hmem, haddr, hstored j hj]
  rw [u.getV_loaded_of_le hj]
  exact Option.some.inj ((Memory.read_of_lt u.mem (by omega)).symm.trans hread)

/-! ## The fetch after a store (R88) -/

/-- A fetch joins the bytes memory holds at pc and pc + 1 (R74), as numbers. -/
theorem State.fetch_toNat {t : State} (h : t.pc.toNat ≤ 0xFFE) :
    ∃ hi lo : Byte, t.fetch.map BitVec.toNat = some (hi.toNat * 256 + lo.toNat) ∧
      t.mem.read t.pc.toNat = some hi ∧ t.mem.read (t.pc.toNat + 1) = some lo := by
  obtain ⟨op, hi, lo, hfetch, hhi, hlo, hop⟩ := fetchIsBigEndian t h
  exact ⟨hi, lo, by rw [hfetch, Option.map_some, hop], hhi, hlo⟩

/-- Settles O39: each byte of the fetch is what memory holds after the store, which is the byte stored or the old one. -/
theorem storeIsSeenByTheNextFetch : Obligations.StoreIsSeenByTheNextFetch := by
  refine fun x s hwf hpc => ⟨fun h => ?block, fun h => ?digits⟩
  case block =>
    obtain ⟨t, ht, hin, hout, htpc, -⟩ := (registerBlockIsStored x s hwf).1 h
    obtain ⟨hi, lo, hfetch, hhi, hlo⟩ := State.fetch_toNat (t := t) (by rw [htpc]; exact hpc)
    rw [htpc] at hhi hlo
    have hstored {a : Nat} {byte : Byte} (ha : t.mem.read a = some byte) (j : Reg) (hj : j ≤ x)
        (haddr : s.indexAddr j.val = a) : byte = s.getV j :=
      Option.some.inj (ha.symm.trans (haddr ▸ hin j hj))
    exact ⟨t, hi, lo, ht, htpc, hfetch, hstored hhi, hstored hlo, fun hr => (hout _ hr).symm.trans hhi,
      fun hr => (hout _ hr).symm.trans hlo⟩
  case digits =>
    obtain ⟨t, ht, h0, h1, h2, hout, htpc, -⟩ := (decimalDigitsAreStored x s hwf).1 h
    obtain ⟨hi, lo, hfetch, hhi, hlo⟩ := State.fetch_toNat (t := t) (by rw [htpc]; exact hpc)
    rw [htpc] at hhi hlo
    have hin (k : Nat) (hk : k < 3) :
        (t.mem.read (s.indexAddr k)).map BitVec.toNat = some ((s.getV x).toNat / 10 ^ (2 - k) % 10) := by
      have hv := (s.getV x).isLt
      match k, hk with
      | 0, _ => rw [h0]; simp only [Option.some.injEq]; omega
      | 1, _ => exact h1
      | 2, _ => rw [h2]; simp
    have hstored {a : Nat} {byte : Byte} (ha : t.mem.read a = some byte) (k : Nat) (hk : k < 3)
        (haddr : s.indexAddr k = a) : byte.toNat = (s.getV x).toNat / 10 ^ (2 - k) % 10 := by
      have hdigit := hin k hk
      rw [haddr, ha] at hdigit
      exact Option.some.inj hdigit
    exact ⟨t, hi, lo, ht, htpc, hfetch, hstored hhi, hstored hlo, fun hr => (hout _ hr).symm.trans hhi,
      fun hr => (hout _ hr).symm.trans hlo⟩

end Sys2Proof.Machine
end

section
/-! SUPPORT. Proofs about the keypad (45_keypad.md). -/

namespace Sys2Proof.Machine

theorem State.skipIf_not_pc (s : State) (c : Bool) : (s.skipIf (!c)).pc = if c = true then s.pc else s.pc + 2 := by
  cases c <;> rfl

/-- Settles O40: for a key's number both are skips, and for a greater number only the record is written. -/
theorem keySkips : Obligations.KeySkips := by
  refine fun x s => ⟨fun h => ⟨?skp, ?sknp⟩, fun h => ⟨?skpFault, ?sknpFault⟩⟩
  case skp => exact ⟨_, exec_skp_of_le x s h, s.skipIf_pc _, s.skipIf_frame _⟩
  case sknp => exact ⟨_, exec_sknp_of_le x s h, s.skipIf_not_pc _, s.skipIf_frame _⟩
  case skpFault => exact ⟨_, exec_skp_of_gt x s h, rfl, rfl, s.takeFault_frame _ _ _⟩
  case sknpFault => exact ⟨_, exec_sknp_of_gt x s h, rfl, rfl, s.takeFault_frame _ _ _⟩

/-- A pressed key below which none is pressed is the lowest pressed key (D14). -/
theorem State.lowestKey_of_lowest {s : State} {k : Reg} (hk : s.keys.getLsbD k.val = true)
    (hlow : ∀ j : Reg, j < k → s.keys.getLsbD j.val = false) : s.lowestKey = some k := by
  cases hfound : s.lowestKey with
  | none =>
    rw [lowestKey_none] at hfound
    rw [hfound] at hk
    simp at hk
  | some j =>
    obtain ⟨hj, hlowj⟩ := lowestKey_some hfound
    have hjk : ¬j < k := fun hlt => by rw [hlow j hlt] at hj; cases hj
    have hkj : ¬k < j := fun hlt => by rw [hlowj k hlt] at hk; cases hk
    exact congrArg some (le_antisymm (not_lt.mp hkj) (not_lt.mp hjk))

theorem State.lowestKey_of_unpressed {s : State} (h : ∀ k : Reg, s.keys.getLsbD k.val = false) : s.lowestKey = none := by
  cases hfound : s.lowestKey with
  | none => rfl
  | some k => exact absurd (lowestKey_some hfound).1 (by rw [h k]; exact Bool.false_ne_true)

/-- Settles O41: with a lowest key the wait is a write of Vx, and with none a write of pc. -/
theorem keyWaitTakesTheLowestKey : Obligations.KeyWaitTakesTheLowestKey := by
  refine fun x s => ⟨fun k hk hlow => ?pressed, fun h => ?unpressed⟩
  case pressed =>
    have hnumber : (BitVec.ofNat 8 k.val).toNat = k.val := by
      rw [BitVec.toNat_ofNat]; exact Nat.mod_eq_of_lt (by omega)
    refine ⟨_, exec_ldVxK_of_some x (State.lowestKey_of_lowest hk hlow), ?_, rfl, s.setV_frame x _⟩
    rw [State.getV_setV_same, hnumber]
  case unpressed => exact ⟨_, exec_ldVxK_of_none x (State.lowestKey_of_unpressed h), rfl, s.setPc_frame _⟩

end Sys2Proof.Machine
end

section
/-! SUPPORT. Proofs about DRW (40_display.md). -/

namespace Sys2Proof.Machine

/-- The set bits of the rows read at I are the sprite's set bits (R142). -/
theorem State.rowsBit_bytesAtIndex (s : State) (xs ys : Nat) {n px py : Nat} (h : n = 0 ∨ s.indexAddr n ≤ 0x1000) :
    Canvas.rowsBit xs ys (s.bytesAtIndex n) px py = s.spriteBit xs ys n px py := by
  unfold Canvas.rowsBit Canvas.columnBit State.spriteBit
  by_cases hrow : ys ≤ py
  · by_cases hn : py < ys + n
    · have hk : py - ys < n := by omega
      have haddr : s.indexAddr (py - ys) < s.indexAddr n := Nat.add_lt_add_left hk _
      have hread : s.mem.read (s.i.toNat + (py - ys)) = some (Memory.lookup s.mem (s.indexAddr (py - ys))) :=
        Memory.read_of_lt _ (by show s.indexAddr (py - ys) < 4096; omega)
      have hcolumn : 7 - (px - xs) < 8 := by omega
      rw [s.bytesAtIndex_getD hk, hread]
      simp [hrow, hn, hcolumn]
    · have hk : (s.bytesAtIndex n).getD (py - ys) 0 = 0 :=
        List.getD_eq_default _ _ (by rw [bytesAtIndex_length]; omega)
      rw [hk]
      simp [hn]
  · simp [hrow]

section
variable (x y : Reg) (n : RowCount) (s : State)

/-- A set bit of the sprite DRW Vx, Vy, n draws falls on the pixel. -/
def State.drwBit (px py : Nat) : Bool := s.spriteBit ((s.getV x).toNat % 64) ((s.getV y).toNat % 32) n.val px py

/-- The pixel law of DRW (R142, R144). -/
theorem State.drawn_pixel (h : n.val = 0 ∨ s.indexAddr n.val ≤ 0x1000) {px py : Nat} (hx : px < 64) (hy : py < 32) :
    (s.drawn x y n).fb.pixel px py = (s.fb.pixel px py ^^ s.drwBit x y n px py) := by
  rw [drwBit, ← s.rowsBit_bytesAtIndex _ _ h]
  exact Canvas.drawRows_clip _ px py hx hy _ _ _

/-- The collision law of DRW (R142, R145). -/
theorem State.drawn_collided (h : n.val = 0 ∨ s.indexAddr n.val ≤ 0x1000) :
    (s.drawn x y n).collided = true ↔
      ∃ px py, px < 64 ∧ py < 32 ∧ s.fb.pixel px py = true ∧ s.drwBit x y n px py = true := by
  refine (Canvas.drawRows_clip_collided _ _ _ _).trans ?_
  simp only [Bool.false_eq_true, false_or, s.rowsBit_bytesAtIndex _ _ h]
  exact exists₂_congr fun px py => and_congr_right fun _ => and_congr_right fun _ => and_comm

end

theorem collisionFlag_toNat (c : Canvas) : (collisionFlag c).toNat = if c.collided then 1 else 0 := flagByte_toNat _

/-- Settles O47: the state after DRW is the screen drawn on and VF the collision, so both laws hold of it. -/
theorem drawInvertsExactlyTheSprite : Obligations.DrawInvertsExactlyTheSprite := by
  refine fun x y n s h => ⟨_, exec_drw_of_fits x y n s h, fun px py hx hy => s.drawn_pixel x y n h hx hy, ?flag,
    ?bit, rfl, ?frame⟩
  case flag =>
    rw [State.getV_setV_same]
    exact (flagByte_toNat_eq_one _).trans (s.drawn_collided x y n h)
  case bit =>
    rw [State.getV_setV_same, collisionFlag_toNat]
    split <;> decide
  case frame => exact (s.withFb_frame _).of_no_regs.setV (List.mem_singleton.mpr rfl) _

/-- Settles O48: with a byte beyond memory only the record is written. -/
theorem drawBeyondMemoryFaults : Obligations.DrawBeyondMemoryFaults := fun x y n s h0 h =>
  ⟨_, exec_drw_of_beyond x y n s h0 h, rfl, rfl, s.takeFault_frame _ _ _⟩

/-- The sprite is read from I and memory alone. -/
theorem State.spriteBit_congr {s t : State} (hi : t.i = s.i) (hm : ∀ a, t.mem.read a = s.mem.read a)
    (xs ys n px py : Nat) : t.spriteBit xs ys n px py = s.spriteBit xs ys n px py := by
  rw [spriteBit, spriteBit, hi, hm]

/-- Settles O49: a draw keeps the coordinates, I and memory, so the second draw inverts the same pixels again and meets
those the first one turned on. -/
theorem drawingTwiceRestoresTheScreen : Obligations.DrawingTwiceRestoresTheScreen := by
  intro x y n s hx hy h
  obtain ⟨t, ht, htpixel, -, -, -, hregs, hparts⟩ := drawInvertsExactlyTheSprite x y n s h
  have hi : t.i = s.i := hparts .index (by decide)
  have hmem : ∀ a, t.mem.read a = s.mem.read a := hparts .memory (by decide)
  have ht' : n.val = 0 ∨ t.indexAddr n.val ≤ 0x1000 := by
    rw [State.indexAddr, hi]
    exact h
  obtain ⟨u, hu, hupixel, huflag, -⟩ := drawInvertsExactlyTheSprite x y n t ht'
  simp only [hregs x (by simpa using hx), hregs y (by simpa using hy), State.spriteBit_congr hi hmem] at hupixel huflag
  refine ⟨t, u, ht, hu, Framebuffer.ext_pixel fun px py hpx hpy => ?screen, huflag.trans ?flag⟩
  case screen => rw [hupixel px py hpx hpy, htpixel px py hpx hpy, Bool.xor_assoc, Bool.xor_self, Bool.xor_false]
  case flag =>
    refine exists₂_congr fun px py => and_congr_right fun hpx => and_congr_right fun hpy => and_congr_left fun hbit => ?_
    rw [htpixel px py hpx hpy, hbit, Bool.xor_true, Bool.not_eq_true']

end Sys2Proof.Machine
end

section
/-! SUPPORT. What the execution of any instruction can do, said once: it raises the one fault it can, or it completes in its
frame and keeps the invariant (10_state.md, 60_exceptions.md section 3). -/

namespace Sys2Proof.Machine

/-! ## The parts of the state the invariant reads -/

/-- The parts the invariant reads are the same in both states. -/
structure SameForInv (s t : State) : Prop where
  mem : t.mem = s.mem
  pc : t.pc = s.pc
  stack : t.stack = s.stack
  sp : t.sp = s.sp
  fault : t.fault = s.fault

theorem Inv.of_same {s t : State} (hi : Inv s) (h : SameForInv s t) : Inv t where
  memory := by rw [h.mem]; exact hi.memory
  pc := by rw [h.pc]; exact hi.pc
  returns j hj := by
    rw [h.sp] at hj
    rw [State.stackAt, h.stack]
    exact hi.returns j hj
  record := by rw [h.fault]; exact hi.record

/-- Moving pc within its bound keeps the invariant (R39). -/
theorem Inv.setPc {s : State} (hi : Inv s) {target : Word} (h : target.toNat ≤ 0x10FE) : Inv (s.setPc target) :=
  ⟨hi.memory, h, hi.returns, hi.record⟩

/-- Taking a fault keeps the invariant: the record's kind is not None (R44). -/
theorem Inv.takeFault {s : State} (hi : Inv s) {kind : FaultKind} (h : kind ≠ .none) (opcode address : Word) :
    Inv (s.takeFault kind opcode address) :=
  ⟨hi.memory, hi.pc, hi.returns, fun hnone => absurd hnone h⟩

/-! ## An instruction that completes -/

/-- The instruction completed from s in t: the record is as it was, the writes are those its rule names, and the invariant
is kept where pc is A + 2 for an address A that was fetched from. -/
structure Completes (i : Instr) (s t : State) : Prop where
  record : t.fault = s.fault
  frame : Frame (writtenRegs i) (writtenParts i) s t
  keeps : Inv s → 2 ≤ s.pc.toNat → s.pc.toNat ≤ 0x1000 → Inv t

section
variable {i : Instr} {s t : State}

theorem Completes.of_same (hf : Frame (writtenRegs i) (writtenParts i) s t) (h : SameForInv s t) : Completes i s t :=
  ⟨h.fault, hf, fun hi _ _ => hi.of_same h⟩

/-- A write of pc, within its bound, completes any instruction. -/
theorem Completes.of_setPc {target : Word} (h : 2 ≤ s.pc.toNat → s.pc.toNat ≤ 0x1000 → target.toNat ≤ 0x10FE) :
    Completes i s (s.setPc target) :=
  ⟨rfl, (s.setPc_frame target).of_nothing, fun hi h2 hle => hi.setPc (h h2 hle)⟩

theorem Completes.of_skipIf (c : Bool) : Completes i s (s.skipIf c) := by
  cases c with
  | false => exact .of_same (Frame.refl _ _ s) ⟨rfl, rfl, rfl, rfl, rfl⟩
  | true => exact .of_setPc fun _ hle => by bv_omega

theorem Completes.of_setV {x : Reg} (h : x ∈ writtenRegs i) (byte : Byte) : Completes i s (s.setV x byte) :=
  .of_same ((Frame.refl _ _ s).setV h byte) ⟨rfl, rfl, rfl, rfl, rfl⟩

/-- Two register writes, VF among them: the form of every instruction with a flag (R200). -/
theorem Completes.of_setV_setV {x q : Reg} (hx : x ∈ writtenRegs i) (hq : q ∈ writtenRegs i) (a b : Byte) :
    Completes i s ((s.setV x a).setV q b) :=
  .of_same (((Frame.refl _ _ s).setV hx a).setV hq b) ⟨rfl, rfl, rfl, rfl, rfl⟩

/-- A store completes an instruction that may write memory: the canonical form is kept. -/
theorem Completes.of_store {a : Nat} {bytes : List Byte} {m : Memory} (hm : s.mem.writeBytes a bytes = some m)
    (hp : .memory ∈ writtenParts i) : Completes i s { s with mem := m } :=
  ⟨rfl, (s.withMem_frame m).of_no_regs.mono (fun _ hr => hr) fun _ h => List.mem_singleton.mp h ▸ hp,
    fun hi _ _ => ⟨Memory.wf_writeBytes hi.memory hm, hi.pc, hi.returns, hi.record⟩⟩

end

theorem Completes.setVs (x : Reg) (s : State) :
    Completes (.ldVxMem x) s (s.setVs 0 (s.bytesAtIndex (x.val + 1))) := by
  refine .of_same ((s.loaded_frame x).mono (fun _ hr => hr) fun _ hp => absurd hp List.not_mem_nil) ?_
  rw [State.setVs_eq]
  exact ⟨rfl, rfl, rfl, rfl, rfl⟩

/-- A CALL with room pushes pc, at most 0x1000, and jumps within the bound (R39, R163). -/
theorem Completes.call (nnn : Addr12) (s : State) (h : s.sp.val < 16) :
    Completes (.call nnn) s ({ s with stack := s.stack.set s.sp.val s.pc h,
                                      sp := ⟨s.sp.val + 1, Nat.succ_lt_succ h⟩ }.setPc (zext16 nnn)) := by
  refine ⟨rfl, (s.withStack_setPc_frame _ _ _).mono (fun _ hr => hr) ?_,
    fun hi _ hle => ⟨hi.memory, ?pc, ?returns, hi.record⟩⟩
  · simp [writtenParts]
  case pc =>
    have := nnn.isLt
    rw [State.setPc_pc, zext16_toNat]
    omega
  case returns =>
    intro j hj
    show (s.stack.set s.sp.val s.pc h)[j.val].toNat ≤ 0x1000
    by_cases hnew : s.sp.val = j.val
    · simp only [hnew, Vector.getElem_set_self]
      exact hle
    · have hold : j.val < s.sp.val := lt_of_le_of_ne (Nat.le_of_lt_succ hj) (Ne.symm hnew)
      rw [Vector.getElem_set_ne h j.isLt hnew]
      exact hi.returns j hold

/-- A RET with an entry goes to it, at most 0x1000, and leaves fewer pending (R39, R161). -/
theorem Completes.ret (s : State) (h : 0 < s.sp.val) (hlt : s.sp.val - 1 < 16) (hlt' : s.sp.val - 1 < 17) :
    Completes .ret s ({ s with sp := ⟨s.sp.val - 1, hlt'⟩ }.setPc s.stack[s.sp.val - 1]) := by
  refine ⟨rfl, (s.withStack_setPc_frame s.stack _ _).mono (fun _ hr => hr) ?_,
    fun hi _ _ => ⟨hi.memory, ?pc, ?returns, hi.record⟩⟩
  · simp [writtenParts]
  case pc => exact (hi.returns ⟨s.sp.val - 1, hlt⟩ (Nat.sub_lt h Nat.one_pos)).trans (by decide)
  case returns => exact fun j hj => hi.returns j (Nat.lt_of_lt_of_le hj (Nat.sub_le _ 1))

/-! ## Every instruction, by its row -/

/-- What an instruction's execution from s can leave: the fault it can raise (R313), or what its completion leaves. -/
inductive Effect (i : Instr) (s : State) : State → Prop where
  | fault (kind : FaultKind) (h : raisable i = some kind) : Effect i s (s.takeFault kind (encode i) (s.pc - 2))
  | done {t : State} (h : Completes i s t) : Effect i s t

/-- Every instruction executes in every state, and has one of its effects (R105, R313). -/
theorem exec_effect (i : Instr) (s : State) : ∃ t, exec i s = .next t ∧ Effect i s t := by
  cases i with
  | cls => exact ⟨_, exec_cls s, .done (.of_same (s.withFb_frame _) ⟨rfl, rfl, rfl, rfl, rfl⟩)⟩
  | ret =>
    obtain h | h := Nat.eq_zero_or_pos s.sp.val
    · exact ⟨_, exec_ret_of_empty s h, .fault _ rfl⟩
    · exact ⟨_, exec_ret_of_pos s h (by omega) (by omega), .done (.ret s h (by omega) (by omega))⟩
  | jp nnn =>
    refine ⟨_, exec_jp nnn s, .done (.of_setPc fun _ _ => ?_)⟩
    rw [zext16_toNat]
    omega
  | call nnn =>
    obtain h | h := Nat.lt_or_ge s.sp.val 16
    · exact ⟨_, exec_call_of_lt nnn s h, .done (.call nnn s h)⟩
    · exact ⟨_, exec_call_of_full nnn s (by omega), .fault _ rfl⟩
  | seImm x kk => exact ⟨_, exec_seImm x kk s, .done (.of_skipIf _)⟩
  | sneImm x kk => exact ⟨_, exec_sneImm x kk s, .done (.of_skipIf _)⟩
  | seReg x y => exact ⟨_, exec_seReg x y s, .done (.of_skipIf _)⟩
  | sneReg x y => exact ⟨_, exec_sneReg x y s, .done (.of_skipIf _)⟩
  | ldImm x kk => exact ⟨_, exec_ldImm x kk s, .done (.of_setV (.head _) _)⟩
  | addImm x kk => exact ⟨_, exec_addImm x kk s, .done (.of_setV (.head _) _)⟩
  | ldReg x y => exact ⟨_, exec_ldReg x y s, .done (.of_setV (.head _) _)⟩
  | orReg x y => exact ⟨_, exec_orReg x y s, .done (.of_setV (.head _) _)⟩
  | andReg x y => exact ⟨_, exec_andReg x y s, .done (.of_setV (.head _) _)⟩
  | xorReg x y => exact ⟨_, exec_xorReg x y s, .done (.of_setV (.head _) _)⟩
  | addReg x y => exact ⟨_, exec_addReg x y s, .done (.of_setV_setV (.head _) (.tail _ (.head _)) _ _)⟩
  | sub x y => exact ⟨_, exec_sub x y s, .done (.of_setV_setV (.tail _ (.head _)) (.head _) _ _)⟩
  | shr x y => exact ⟨_, exec_shr x y s, .done (.of_setV_setV (.tail _ (.head _)) (.head _) _ _)⟩
  | subn x y => exact ⟨_, exec_subn x y s, .done (.of_setV_setV (.tail _ (.head _)) (.head _) _ _)⟩
  | shl x y => exact ⟨_, exec_shl x y s, .done (.of_setV_setV (.tail _ (.head _)) (.head _) _ _)⟩
  | ldI nnn => exact ⟨_, exec_ldI nnn s, .done (.of_same (s.setI_frame _) ⟨rfl, rfl, rfl, rfl, rfl⟩)⟩
  | jpV0 nnn =>
    refine ⟨_, exec_jpV0 nnn s, .done (.of_setPc fun _ _ => ?_)⟩
    rw [indexedTarget_toNat]
    omega
  | rnd x kk =>
    have hframe := ((s.withRng_frame (s.rng + 1)).of_no_regs (regs := [x])).setV (.head _) (Config.randByte s.rng &&& kk)
    exact ⟨_, exec_rnd x kk s, .done (.of_same hframe ⟨rfl, rfl, rfl, rfl, rfl⟩)⟩
  | drw x y n =>
    by_cases h : n.val = 0 ∨ s.indexAddr n.val ≤ 0x1000
    · have hframe := (s.withFb_frame (s.drawn x y n).fb).of_no_regs (regs := [VF])
      have hframe' := (hframe.setV (.head _) (collisionFlag (s.drawn x y n))).mono (parts' := writtenParts (.drw x y n))
        (fun _ hr => hr) (by simp [writtenParts])
      exact ⟨_, exec_drw_of_fits x y n s h, .done (.of_same hframe' ⟨rfl, rfl, rfl, rfl, rfl⟩)⟩
    · exact ⟨_, exec_drw_of_beyond x y n s (by omega) (by omega), .fault _ rfl⟩
  | skp x =>
    obtain h | h := Nat.lt_or_ge 15 (s.getV x).toNat
    · exact ⟨_, exec_skp_of_gt x s h, .fault _ rfl⟩
    · exact ⟨_, exec_skp_of_le x s h, .done (.of_skipIf _)⟩
  | sknp x =>
    obtain h | h := Nat.lt_or_ge 15 (s.getV x).toNat
    · exact ⟨_, exec_sknp_of_gt x s h, .fault _ rfl⟩
    · exact ⟨_, exec_sknp_of_le x s h, .done (.of_skipIf _)⟩
  | ldVxDt x => exact ⟨_, exec_ldVxDt x s, .done (.of_setV (.head _) _)⟩
  | ldVxK x =>
    cases hkey : s.lowestKey with
    | some k => exact ⟨_, exec_ldVxK_of_some x hkey, .done (.of_setV (.head _) _)⟩
    | none => exact ⟨_, exec_ldVxK_of_none x hkey, .done (.of_setPc fun h2 hle => by bv_omega)⟩
  | ldDtVx x => exact ⟨_, exec_ldDtVx x s, .done (.of_same (s.withDt_frame _) ⟨rfl, rfl, rfl, rfl, rfl⟩)⟩
  | ldStVx x => exact ⟨_, exec_ldStVx x s, .done (.of_same (s.withSt_frame _) ⟨rfl, rfl, rfl, rfl, rfl⟩)⟩
  | addI x => exact ⟨_, exec_addI x s, .done (.of_same (s.setI_frame _) ⟨rfl, rfl, rfl, rfl, rfl⟩)⟩
  | ldF x => exact ⟨_, exec_ldF x s, .done (.of_same (s.setI_frame _) ⟨rfl, rfl, rfl, rfl, rfl⟩)⟩
  | ldB x =>
    cases hm : s.mem.writeBytes (s.indexAddr 0) (bcdDigits (s.getV x)) with
    | some m => exact ⟨_, exec_ldB_of_some hm, .done (.of_store hm (.head _))⟩
    | none => exact ⟨_, exec_ldB_of_none hm, .fault _ rfl⟩
  | ldMemVx x =>
    cases hm : s.mem.writeBytes (s.indexAddr 0) (s.regsUpTo x) with
    | some m => exact ⟨_, exec_ldMemVx_of_some hm, .done (.of_store hm (.head _))⟩
    | none => exact ⟨_, exec_ldMemVx_of_none hm, .fault _ rfl⟩
  | ldVxMem x =>
    obtain h | h := Nat.lt_or_ge 0xFFF (s.indexAddr x.val)
    · exact ⟨_, exec_ldVxMem_of_beyond x s h, .fault _ rfl⟩
    · exact ⟨_, exec_ldVxMem_of_fits x s h, .done (.setVs x s)⟩

theorem effect_of_exec {i : Instr} {s t : State} (h : exec i s = .next t) : Effect i s t := by
  obtain ⟨u, hu, heffect⟩ := exec_effect i s
  rw [hu] at h
  cases h
  exact heffect

/-! ## The table of fault kinds (R313) -/

theorem raisable_ne_none {i : Instr} {kind : FaultKind} (h : raisable i = some kind) : kind ≠ .none := by
  rintro rfl
  cases i <;> cases h

/-- An instruction that can raise may write the record. -/
theorem fault_mem_writtenParts {i : Instr} {kind : FaultKind} (h : raisable i = some kind) :
    .fault ∈ writtenParts i := by
  cases i with
  | ret | call | drw | ldB | ldMemVx => exact .tail _ (.head _)
  | skp | sknp | ldVxMem => exact .head _
  | _ => cases h

/-! ## The statements about every instruction -/

/-- Settles O13: a fault writes the record alone, and a completion leaves it. -/
theorem executionFaultsArePrecise : Obligations.ExecutionFaultsArePrecise := by
  intro i s t h
  cases effect_of_exec h with
  | fault kind hkind => exact .inr ⟨kind, hkind, rfl⟩
  | done hdone => exact .inl hdone.record

/-- Settles O14: an instruction that can raise may write the record, and a completion stays in the frame. -/
theorem instructionsWriteOnlyTheirOwnState : Obligations.InstructionsWriteOnlyTheirOwnState := by
  intro i s t h
  cases effect_of_exec h with
  | fault kind hkind =>
    exact (s.takeFault_frame _ _ _).of_no_regs.mono (fun _ hr => hr)
      fun _ hp => List.mem_singleton.mp hp ▸ fault_mem_writtenParts hkind
  | done hdone => exact hdone.frame

/-- An instruction fetched from an address keeps the invariant (R39). -/
theorem exec_keeps_inv {i : Instr} {s t : State} (h : exec i s = .next t) (hi : Inv s) (h2 : 2 ≤ s.pc.toNat)
    (hle : s.pc.toNat ≤ 0x1000) : Inv t := by
  cases effect_of_exec h with
  | fault kind hkind => exact hi.takeFault (raisable_ne_none hkind) _ _
  | done hdone => exact hdone.keeps hi h2 hle

end Sys2Proof.Machine
end

section
/-! SUPPORT. Proofs about the call stack over a run (41_control_flow.md section 6) and about what no instruction reads
(10_state.md sections 5 and 8). -/

namespace Sys2Proof.Machine

/-! ## The call stack as a list (R165) -/

/-- An instruction is a CALL, a RET, or leaves the stack alone. -/
theorem call_ret_or_other (i : Instr) :
    (∃ nnn, i = .call nnn) ∨ i = .ret ∨ (isCall i = false ∧ isRet i = false ∧ .stack ∉ writtenParts i) := by
  cases i with
  | call nnn => exact .inl ⟨nnn, rfl⟩
  | ret => exact .inr (.inl rfl)
  | _ => exact .inr (.inr ⟨rfl, rfl, by simp [writtenParts]⟩)

theorem returnStack_cons_other {i : Instr} (hc : isCall i = false) (hr : isRet i = false) (pc : Word)
    (rest : List (Word × Instr)) (l : List Word) : returnStack ((pc, i) :: rest) l = returnStack rest l := by
  cases i with
  | call | ret => contradiction
  | _ => rfl

/-- A CALL without a fault appends pc to the pending addresses. -/
theorem pending_of_call {nnn : Addr12} {s t : State} (h : exec (.call nnn) s = .next t) (hrun : t.fault.kind = .none) :
    t.pending = s.pending ++ [s.pc] ∧ t.sp.val = s.sp.val + 1 := by
  obtain hlt | hge := Nat.lt_or_ge s.sp.val 16
  · rw [exec_call_of_lt nnn s hlt] at h
    cases h
    refine ⟨?_, rfl⟩
    show (s.stack.set s.sp.val s.pc hlt).toList.take (s.sp.val + 1) = s.stack.toList.take s.sp.val ++ [s.pc]
    rw [List.take_succ_eq_append_getElem (by simpa using hlt), Vector.getElem_toList, Vector.getElem_set_self,
      Vector.toList_set, List.take_set_of_le (Nat.le_refl _)]
  · rw [exec_call_of_full nnn s (by omega)] at h
    cases h
    cases hrun

/-- A RET without a fault drops the newest pending address. -/
theorem pending_of_ret {s t : State} (h : exec .ret s = .next t) (hrun : t.fault.kind = .none) :
    t.pending = s.pending.dropLast ∧ t.sp.val + 1 = s.sp.val := by
  obtain h0 | hpos := Nat.eq_zero_or_pos s.sp.val
  · rw [exec_ret_of_empty s h0] at h
    cases h
    cases hrun
  · have hnewest := returnResumesTheNewestCall s t hpos h
    rw [exec_ret_of_pos s hpos (by omega) (by omega)] at h
    cases h
    exact ⟨by rw [hnewest, List.dropLast_concat], Nat.sub_add_cancel hpos⟩

/-- An instruction that may not write the stack leaves the pending addresses. -/
theorem pending_of_other {i : Instr} {s t : State} (h : exec i s = .next t) (hstack : .stack ∉ writtenParts i) :
    t.pending = s.pending ∧ t.sp = s.sp := by
  obtain ⟨hst, hsp⟩ : t.stack = s.stack ∧ t.sp = s.sp := (instructionsWriteOnlyTheirOwnState i s t h).2 .stack hstack
  exact ⟨by rw [State.pending, State.pending, hst, hsp], hsp⟩

/-- A run without a fault is one instruction without a fault and then the rest. -/
theorem runNoFault_cons {pc : Word} {i : Instr} {rest : List (Word × Instr)} {s t : State}
    (h : runNoFault ((pc, i) :: rest) s = some t) :
    ∃ u, exec i (s.setPc pc) = .next u ∧ u.fault.kind = .none ∧ runNoFault rest u = some t := by
  obtain ⟨u, hu, -⟩ := exec_effect i (s.setPc pc)
  simp only [runNoFault, hu] at h
  split at h
  · next hrun => exact ⟨u, hu, hrun, h⟩
  · cases h

/-- Settles O20, by induction on the instructions: each does to the pending addresses what it does to the list. -/
theorem callStackRefinesAList : Obligations.CallStackRefinesAList := by
  intro prog
  induction prog with
  | nil =>
    intro s t h
    cases h
    exact ⟨rfl, rfl⟩
  | cons p rest ih =>
    intro s t h
    obtain ⟨pc, i⟩ := p
    obtain ⟨u, hu, hrun, hrest⟩ := runNoFault_cons h
    obtain ⟨hlist, hcount⟩ := ih u t hrest
    obtain ⟨nnn, rfl⟩ | rfl | ⟨hc, hr, hstack⟩ := call_ret_or_other i
    · obtain ⟨hpending, hsp⟩ := pending_of_call hu hrun
      have hsp' : u.sp.val = s.sp.val + 1 := hsp
      refine ⟨by rw [hlist, hpending]; rfl, ?_⟩
      rw [List.countP_cons_of_neg (by simp [isRet]), List.countP_cons_of_pos (by rfl)]
      omega
    · obtain ⟨hpending, hsp⟩ := pending_of_ret hu hrun
      have hsp' : u.sp.val + 1 = s.sp.val := hsp
      refine ⟨by rw [hlist, hpending]; rfl, ?_⟩
      rw [List.countP_cons_of_pos (by rfl), List.countP_cons_of_neg (by simp [isCall])]
      omega
    · obtain ⟨hpending, hsp⟩ := pending_of_other hu hstack
      have hsp' : u.sp.val = s.sp.val := congrArg Fin.val hsp
      refine ⟨by rw [hlist, hpending, returnStack_cons_other hc hr]; rfl, ?_⟩
      rw [List.countP_cons_of_neg (by simp [hr]), List.countP_cons_of_neg (by simp [hc])]
      omega

/-! ## Parts that are not read: two runs of one instruction -/

/-- The state with another stack, another ST and another count of draws. -/
def State.disguise (s : State) (k : Vector Word 16 → Vector Word 16) (g : Byte → Byte) (r : Nat → Nat) : State :=
  { s with stack := k s.stack, st := g s.st, rng := r s.rng }

section
variable (k : Vector Word 16 → Vector Word 16) (g : Byte → Byte) (r : Nat → Nat)

theorem State.skipIf_disguise (s : State) (c : Bool) :
    (s.disguise k g r).skipIf c = (s.skipIf c).disguise k g r := by
  cases c <;> rfl

theorem State.setVs_disguise : ∀ (bytes : List Byte) (s : State) (q : Nat),
    (s.disguise k g r).setVs q bytes = (s.setVs q bytes).disguise k g r
  | [], _, _ => rfl
  | byte :: rest, s, q => by
    unfold setVs
    split
    · exact setVs_disguise rest (s.setV _ byte) (q + 1)
    · rfl

variable {k g r}

/-- Of the stack, ST and the random source an instruction reads only what it may write: where the disguise leaves those
alone, the run of the disguised state is the run in disguise. -/
theorem exec_and_disguise (i : Instr) (s : State) (hk : .stack ∈ writtenParts i → k = id)
    (hg : .soundTimer ∈ writtenParts i → g = id) (hr : .random ∈ writtenParts i → r = id) :
    ∃ t, exec i s = .next t ∧ exec i (s.disguise k g r) = .next (t.disguise k g r) := by
  cases i with
  | ret =>
    obtain rfl := hk (.head _)
    obtain h0 | hpos := Nat.eq_zero_or_pos s.sp.val
    · exact ⟨_, exec_ret_of_empty s h0, exec_ret_of_empty (s.disguise id g r) h0⟩
    · have hlt : s.sp.val - 1 < 16 := by omega
      exact ⟨_, exec_ret_of_pos s hpos hlt (by omega), exec_ret_of_pos (s.disguise id g r) hpos hlt _⟩
  | call nnn =>
    obtain rfl := hk (.head _)
    obtain hlt | hge := Nat.lt_or_ge s.sp.val 16
    · exact ⟨_, exec_call_of_lt nnn s hlt, exec_call_of_lt nnn (s.disguise id g r) hlt⟩
    · have hfull : s.sp.val = 16 := by omega
      exact ⟨_, exec_call_of_full nnn s hfull, exec_call_of_full nnn (s.disguise id g r) hfull⟩
  | ldStVx x =>
    obtain rfl := hg (.head _)
    exact ⟨_, rfl, rfl⟩
  | rnd x kk =>
    obtain rfl := hr (.head _)
    exact ⟨_, rfl, rfl⟩
  | seImm x kk => exact ⟨_, exec_seImm x kk s, congrArg Host.Outcome.next (s.skipIf_disguise k g r _)⟩
  | sneImm x kk => exact ⟨_, exec_sneImm x kk s, congrArg Host.Outcome.next (s.skipIf_disguise k g r _)⟩
  | seReg x y => exact ⟨_, exec_seReg x y s, congrArg Host.Outcome.next (s.skipIf_disguise k g r _)⟩
  | sneReg x y => exact ⟨_, exec_sneReg x y s, congrArg Host.Outcome.next (s.skipIf_disguise k g r _)⟩
  | skp x =>
    obtain hgt | hle := Nat.lt_or_ge 15 (s.getV x).toNat
    · exact ⟨_, exec_skp_of_gt x s hgt, exec_skp_of_gt x (s.disguise k g r) hgt⟩
    · have hd := exec_skp_of_le x (s.disguise k g r) hle
      exact ⟨_, exec_skp_of_le x s hle, hd.trans (congrArg Host.Outcome.next (s.skipIf_disguise k g r _))⟩
  | sknp x =>
    obtain hgt | hle := Nat.lt_or_ge 15 (s.getV x).toNat
    · exact ⟨_, exec_sknp_of_gt x s hgt, exec_sknp_of_gt x (s.disguise k g r) hgt⟩
    · have hd := exec_sknp_of_le x (s.disguise k g r) hle
      exact ⟨_, exec_sknp_of_le x s hle, hd.trans (congrArg Host.Outcome.next (s.skipIf_disguise k g r _))⟩
  | drw x y n =>
    by_cases hfits : n.val = 0 ∨ s.indexAddr n.val ≤ 0x1000
    · exact ⟨_, exec_drw_of_fits x y n s hfits, exec_drw_of_fits x y n (s.disguise k g r) hfits⟩
    · have hrows : 0 < n.val := by omega
      have hbeyond : 0x1000 < s.indexAddr n.val := by omega
      exact ⟨_, exec_drw_of_beyond x y n s hrows hbeyond, exec_drw_of_beyond x y n (s.disguise k g r) hrows hbeyond⟩
  | ldVxK x =>
    cases hkey : s.lowestKey with
    | some key => exact ⟨_, exec_ldVxK_of_some x hkey, exec_ldVxK_of_some x (s := s.disguise k g r) hkey⟩
    | none => exact ⟨_, exec_ldVxK_of_none x hkey, exec_ldVxK_of_none x (s := s.disguise k g r) hkey⟩
  | ldB x =>
    cases hm : s.mem.writeBytes (s.indexAddr 0) (bcdDigits (s.getV x)) with
    | some m => exact ⟨_, exec_ldB_of_some hm, exec_ldB_of_some (s := s.disguise k g r) hm⟩
    | none => exact ⟨_, exec_ldB_of_none hm, exec_ldB_of_none (s := s.disguise k g r) hm⟩
  | ldMemVx x =>
    cases hm : s.mem.writeBytes (s.indexAddr 0) (s.regsUpTo x) with
    | some m => exact ⟨_, exec_ldMemVx_of_some hm, exec_ldMemVx_of_some (s := s.disguise k g r) hm⟩
    | none => exact ⟨_, exec_ldMemVx_of_none hm, exec_ldMemVx_of_none (s := s.disguise k g r) hm⟩
  | ldVxMem x =>
    obtain hbeyond | hfits := Nat.lt_or_ge 0xFFF (s.indexAddr x.val)
    · exact ⟨_, exec_ldVxMem_of_beyond x s hbeyond, exec_ldVxMem_of_beyond x (s.disguise k g r) hbeyond⟩
    · have hd := exec_ldVxMem_of_fits x (s.disguise k g r) hfits
      exact ⟨_, exec_ldVxMem_of_fits x s hfits,
        hd.trans (congrArg Host.Outcome.next (State.setVs_disguise k g r _ s 0))⟩
  | _ => exact ⟨_, rfl, rfl⟩

theorem exec_disguise {i : Instr} {s t : State} (h : exec i s = .next t) (hk : .stack ∈ writtenParts i → k = id)
    (hg : .soundTimer ∈ writtenParts i → g = id) (hr : .random ∈ writtenParts i → r = id) :
    exec i (s.disguise k g r) = .next (t.disguise k g r) := by
  obtain ⟨u, hu, hd⟩ := exec_and_disguise i s hk hg hr
  rw [hu] at h
  cases h
  exact hd

end

/-- The one instruction that writes the random source is RND. -/
theorem eq_rnd_of_random_mem {i : Instr} (h : .random ∈ writtenParts i) : ∃ x kk, i = .rnd x kk := by
  cases i with
  | rnd x kk => exact ⟨x, kk, rfl⟩
  | _ => simp [writtenParts] at h

/-- The one instruction that writes ST is LD ST, Vx. -/
theorem eq_ldStVx_of_soundTimer_mem {i : Instr} (h : .soundTimer ∈ writtenParts i) : ∃ x, i = .ldStVx x := by
  cases i with
  | ldStVx x => exact ⟨x, rfl⟩
  | _ => simp [writtenParts] at h

/-- Settles O45: LD ST, Vx overwrites ST unread; every other instruction, and with the random source every one but RND,
runs in disguise. -/
theorem soundTimerAndRandomSourceAreNotRead : Obligations.SoundTimerAndRandomSourceAreNotRead := by
  refine fun i s t h => ⟨fun st => ?sound, fun hrnd rng => ?random⟩
  case sound =>
    by_cases hst : .soundTimer ∈ writtenParts i
    · obtain ⟨x, rfl⟩ := eq_ldStVx_of_soundTimer_mem hst
      exact ⟨t, h, rfl⟩
    · have hd := exec_disguise (k := id) (g := fun _ => st) (r := id) h (fun _ => rfl)
        (fun hp => absurd hp hst) fun _ => rfl
      exact ⟨_, hd, rfl⟩
  case random =>
    have hno : .random ∉ writtenParts i := fun hp =>
      have ⟨x, kk, hi⟩ := eq_rnd_of_random_mem hp
      hrnd x kk hi
    exact exec_disguise (k := id) (g := id) (r := fun _ => rng) h (fun _ => rfl) (fun _ => rfl) fun hp => absurd hp hno

end Sys2Proof.Machine
end

section
/-! SUPPORT. The step as a transaction on the state without it (60_exceptions.md R325, R330; log 1). -/

namespace Sys2Proof.Machine

/-- The transaction the next step performs. -/
def State.nextRequest (s : State) : Transaction := s.requests.headD .cycle

/-- The state without it in the queue. -/
def State.dequeued (s : State) : State := { s with requests := s.requests.tail }

theorem step_eq_perform (s : State) : step s = perform s.nextRequest s.dequeued := by
  cases hq : s.requests with
  | nil =>
    have hnext : s.nextRequest = .cycle := by rw [State.nextRequest, hq]; rfl
    rw [hnext]
    exact step_of_nextIsCycle (.inl (by rw [hq]; rfl))
  | cons tr rest =>
    simp only [step, nextTransaction, State.nextRequest, State.dequeued, hq, List.headD_cons, List.tail_cons]

/-- `step_of_nextIsCycle`, with the state it runs on under its name. -/
theorem step_eq_cycle {s : State} (h : s.NextIsCycle) : step s = cycle s.dequeued := step_of_nextIsCycle h

theorem step_of_requests {s : State} {tr : Transaction} {rest : List Transaction} (h : s.requests = tr :: rest) :
    step s = perform tr { s with requests := rest } := by
  rw [step_eq_perform, State.nextRequest, State.dequeued, h, List.headD_cons, List.tail_cons]

end Sys2Proof.Machine
end

section
/-! SUPPORT. Proofs about the Cycle's faults and ends (30_encoding.md section 6, 70_reset_and_hazards.md section 6,
45_keypad.md section 4). -/

namespace Sys2Proof.Machine

/-! ## What the Cycle of a running core can do (R112 to R114) -/

theorem runCycle_of_no_fetch {s : State} (h : s.fetch = none) : runCycle s = .next (s.takeFault .fetchRange 0 s.pc) := by
  simp only [runCycle, h]

theorem runCycle_of_unknown {s : State} {op : Word} {e : DecodeError} (hf : s.fetch = some op)
    (hd : decodeWord op = .error e) : runCycle s = .next (s.advance.takeFault .unknownOpcode op s.pc) := by
  simp only [runCycle, hf, hd]

/-- Only a pc of at most 0xFFE is fetched from (R73). -/
theorem State.pc_le_of_fetch {s : State} {op : Word} (h : s.fetch = some op) : s.pc.toNat ≤ 0xFFE := by
  by_contra hgt
  rw [s.fetch_of_gt (by omega)] at h
  cases h

/-- The Cycle of a running core finds no opcode, an unknown one, or an instruction it executes. -/
theorem runCycle_cases (s : State) :
    (s.fetch = none ∧ runCycle s = .next (s.takeFault .fetchRange 0 s.pc)) ∨
    (∃ op, s.fetch = some op ∧ runCycle s = .next (s.advance.takeFault .unknownOpcode op s.pc)) ∨
    ∃ op i, s.fetch = some op ∧ decodeWord op = .ok i ∧ runCycle s = exec i s.advance := by
  cases hf : s.fetch with
  | none => exact .inl ⟨rfl, runCycle_of_no_fetch hf⟩
  | some op =>
    cases hd : decodeWord op with
    | error e => exact .inr (.inl ⟨op, rfl, runCycle_of_unknown hf hd⟩)
    | ok i => exact .inr (.inr ⟨op, i, rfl, hd, runCycle_of_decode hf hd⟩)

theorem cycle_of_halted {s : State} (h : s.Halted) : cycle s = .next (s.respond (.cycle .halted)) := by
  have hhalted : s.isHalted = true := decide_eq_true h
  simp only [cycle, hhalted, if_true]

theorem finishCycle_of_running {t : State} (h : t.fault.kind = .none) :
    finishCycle (.next t) = .next (t.respond (.cycle .ok)) := by
  rw [finishCycle, State.cycleResult_of_running h]

theorem finishCycle_of_fault {t : State} (h : t.fault.kind ≠ .none) :
    finishCycle (.next t) = .next (t.respond (.cycle (.fault t.fault.kind))) := by
  rw [finishCycle, State.cycleResult_of_fault h]

/-! ## The statements -/

/-- Settles O9: the Cycle finds no opcode, and its fault is reported. -/
theorem fetchBeyondMemoryFaults : Obligations.FetchBeyondMemoryFaults := by
  intro s hrun hnext hpc
  have hrun' : s.dequeued.fault.kind = .none := hrun
  have hfetch : s.dequeued.fetch = none := State.fetch_of_gt _ hpc
  rw [step_eq_cycle hnext, cycle_of_running hrun', runCycle_of_no_fetch hfetch, finishCycle_of_fault FaultKind.noConfusion]
  rfl

/-- Settles O10: the word is rejected by name, and the fault is reported. -/
theorem unknownWordFaults : Obligations.UnknownWordFaults := by
  intro s op hrun hnext hfetch hill
  have hrun' : s.dequeued.fault.kind = .none := hrun
  have hfetch' : s.dequeued.fetch = some op := hfetch
  rw [step_eq_cycle hnext, cycle_of_running hrun', runCycle_of_unknown hfetch' (decodeWord_of_illegal hill),
    finishCycle_of_fault FaultKind.noConfusion]
  rfl

/-- Settles O11: the step is the Cycle, and a halted core's Cycle only answers. -/
theorem haltedCycleChangesNothing : Obligations.HaltedCycleChangesNothing := by
  intro s hhalted hnext
  have hhalted' : s.dequeued.Halted := hhalted
  rw [step_eq_cycle hnext, cycle_of_halted hhalted']
  rfl

/-- A Cycle whose instruction leaves the advanced state with pc back where it was changes nothing. -/
theorem step_of_pc_back {s : State} {i : Instr} (hrun : s.fault.kind = .none) (hnext : s.NextIsCycle)
    (hfetch : s.fetch = some (encode i))
    (hback : ∀ u : State, u.pc = s.pc + 2 → u.keys = s.keys → exec i u = .next (u.setPc s.pc)) :
    step s = .next { s with response := .cycle .ok, requests := s.requests.tail } := by
  have hcycle : cycle s.dequeued = finishCycle (exec i s.dequeued.advance) :=
    cycle_of_decode hrun hfetch (decodeOfEncodeIsTheInstruction i)
  have hrun' : (s.dequeued.advance.setPc s.pc).fault.kind = .none := hrun
  rw [step_eq_cycle hnext, hcycle, hback s.dequeued.advance rfl rfl, finishCycle_of_running hrun']
  simp [State.respond, State.setPc, State.advance, State.dequeued]

/-- Settles O42: with no key pressed the wait sets pc back by the 2 the fetch advanced it. -/
theorem keyWaitSpins : Obligations.KeyWaitSpins := by
  intro x s hrun hnext hfetch hkeys
  refine step_of_pc_back hrun hnext hfetch fun u hpc hsame => ?_
  have hnone : u.lowestKey = none := State.lowestKey_of_unpressed fun k => by rw [hsame]; exact hkeys k
  rw [exec_ldVxK_of_none x hnone, hpc, BitVec.add_sub_cancel]

/-- Settles O54: the jump sets pc to its own address. -/
theorem idleLoopIsFinal : Obligations.IdleLoopIsFinal := by
  intro s hfin hnext
  obtain ⟨hrun, nnn, hfetch, hpc⟩ := hfin
  refine step_of_pc_back hrun hnext hfetch fun u _ _ => ?_
  rw [exec_jp, hpc]

end Sys2Proof.Machine
end

section
/-! SUPPORT. Proofs about the host's transactions, Reset and LoadProgram (60_exceptions.md sections 5, 7 and 8,
70_reset_and_hazards.md sections 1 and 2). -/

namespace Sys2Proof.Machine

/-! ## What each transaction leaves unchanged -/

theorem tick_frame (s : State) : Frame [] [.delayTimer, .soundTimer, .host] s (tick s) :=
  have htimers := (s.withDt_frame (countDown s.dt)).comp (State.withSt_frame _ (countDown s.st))
    (wider := [.delayTimer, .soundTimer]) (by decide) (by decide)
  htimers.comp (State.respond_frame _ _) (by decide) (by decide)

theorem keyWrite_frame (latch : BitVec 16) (s : State) : Frame [] [.keypad, .host] s (keyWrite latch s) :=
  (s.withKeys_frame latch).comp (State.respond_frame _ _) (by decide) (by decide)

/-- LoadProgram of an image that fits (R365). -/
theorem loadProgram_of_fits {image : List Byte} (h : image.length ≤ 3584) (s : State) :
    loadProgram image s =
      { s with mem := (s.mem.writeBytes Config.progBase image).getD s.mem }.respond (.load .ok) := if_pos h

/-- LoadProgram of a longer image (R366). -/
theorem loadProgram_of_long {image : List Byte} (h : 3584 < image.length) (s : State) :
    loadProgram image s = s.respond (.load .loadError) := if_neg (Nat.not_le.mpr h)

theorem loadProgram_pc (image : List Byte) (s : State) : (loadProgram image s).pc = s.pc := by
  unfold loadProgram
  split <;> rfl

theorem loadProgram_frame (image : List Byte) (s : State) : Frame [] [.memory, .host] s (loadProgram image s) := by
  obtain hlong | hfits := Nat.lt_or_ge 3584 image.length
  · rw [loadProgram_of_long hlong]
    exact (s.respond_frame _).mono (fun _ hr => hr) (List.subset_cons_self _ _)
  · rw [loadProgram_of_fits hfits]
    exact (s.withMem_frame _).comp (State.respond_frame _ _) (by decide) (by decide)

/-! ## The halted core (R315, R316) -/

/-- What a transaction other than Reset may change in a halted core. -/
abbrev hostParts : List Part := [.memory, .delayTimer, .soundTimer, .keypad, .host]

theorem perform_of_halted {tr : Transaction} {s t : State} (hhalted : s.Halted) (hreset : tr ≠ .reset)
    (h : perform tr s = .next t) : t.fault = s.fault ∧ t.pc = s.pc ∧ Frame [] hostParts s t := by
  have hresp (r : Response) : Frame [] hostParts s (s.respond r) := (s.respond_frame r).mono (fun _ hr => hr) (by decide)
  cases tr with
  | reset => exact absurd rfl hreset
  | cycle =>
    rw [perform, cycle_of_halted hhalted] at h
    cases h
    exact ⟨rfl, rfl, hresp _⟩
  | loadProgram image =>
    cases h
    have hframe := loadProgram_frame image s
    exact ⟨hframe.2 .fault (by decide), loadProgram_pc image s, hframe.mono (fun _ hr => hr) (by decide)⟩
  | tick =>
    cases h
    exact ⟨rfl, rfl, (tick_frame s).mono (fun _ hr => hr) (by decide)⟩
  | keyWrite latch =>
    cases h
    exact ⟨rfl, rfl, (keyWrite_frame latch s).mono (fun _ hr => hr) (by decide)⟩
  | keyRead | fbRead | statusRead | unused =>
    cases h
    exact ⟨rfl, rfl, hresp _⟩

/-- Settles O12: the transaction performed is not Reset, and every other keeps the record, pc and its frame. -/
theorem onlyResetLeavesTheHaltedState : Obligations.OnlyResetLeavesTheHaltedState := by
  intro s t hhalted hreset h
  have hne : s.nextRequest ≠ .reset := by
    unfold State.nextRequest
    cases hq : s.requests with
    | nil => exact Transaction.noConfusion
    | cons tr rest => exact fun heq => hreset (by rw [hq]; exact congrArg some heq)
  rw [step_eq_perform] at h
  obtain ⟨hfault, hpc, hframe⟩ := perform_of_halted (s := s.dequeued) hhalted hne h
  exact ⟨hfault, hpc, (s.withRequests_frame _).comp hframe (by decide) (List.Subset.refl _)⟩

/-! ## Totality -/

theorem finishCycle_total {a : Answer} (h : ∃ t, a = .next t) : ∃ t, finishCycle a = .next t := by
  obtain ⟨t, rfl⟩ := h
  exact ⟨_, rfl⟩

theorem cycle_total (s : State) : ∃ t, cycle s = .next t := by
  by_cases hrun : s.fault.kind = .none
  · rw [cycle_of_running hrun]
    apply finishCycle_total
    obtain ⟨-, h⟩ | ⟨op, -, h⟩ | ⟨op, i, -, -, h⟩ := runCycle_cases s
    · exact ⟨_, h⟩
    · exact ⟨_, h⟩
    · obtain ⟨t, ht, -⟩ := exec_effect i s.advance
      exact ⟨t, h.trans ht⟩
  · exact ⟨_, cycle_of_halted hrun⟩

/-- Settles O15: a Cycle has a next state because every instruction has, and every other transaction is a function. -/
theorem everyStepHasANextState : Obligations.EveryStepHasANextState := by
  intro s
  rw [step_eq_perform]
  cases s.nextRequest with
  | cycle => exact cycle_total _
  | _ => exact ⟨_, rfl⟩

/-! ## Tick, KeyWrite and the reads (R321, R326 to R329) -/

theorem countDown_toNat (timer : Byte) : (countDown timer).toNat = timer.toNat - 1 := by
  unfold countDown
  split
  · next h => rw [h]; rfl
  · next h => bv_omega

/-- Settles O44: the Tick counts both timers down and answers whether ST was 1. -/
theorem tickCountsBothTimersDown : Obligations.TickCountsBothTimersDown := by
  intro s rest hq
  have hnotify : (s.st == 1) = decide (s.st.toNat = 1) := by
    rw [Bool.eq_iff_iff, beq_iff_eq, decide_eq_true_iff, ← BitVec.toNat_inj]
    rfl
  exact ⟨_, step_of_requests hq, countDown_toNat s.dt, countDown_toNat s.st, hnotify, rfl, rfl,
    (s.withRequests_frame rest).comp (tick_frame _) (by decide) (List.Subset.refl _)⟩

theorem Framebuffer.hostBit_row_column (fb : Framebuffer) {px : Nat} (py : Nat) (h : px < 64) :
    fb.hostBit (py * 64 + px) = fb.pixel px py := by
  have hcolumn : (py * 64 + px) % 64 = px := by omega
  have hrow : (py * 64 + px) / 64 = py := by omega
  rw [hostBit, hcolumn, hrow]

/-- Settles O51: each transaction is one write of its own, after it is taken off the queue. -/
theorem keyWriteAndHostReads : Obligations.KeyWriteAndHostReads := by
  refine ⟨fun s latch rest hq => ⟨_, step_of_requests hq, rfl, rfl, rfl, ?_⟩,
    fun s rest => ⟨fun hq => step_of_requests hq, fun hq => step_of_requests hq, fun hq => step_of_requests hq⟩,
    fun fb px py h => fb.hostBit_row_column py h⟩
  exact (s.withRequests_frame rest).comp (keyWrite_frame latch _) (by decide) (List.Subset.refl _)

/-! ## LoadProgram (R365 to R367) -/

/-- Settles O50: a fitting image lies wholly in memory, so its bytes are stored; a longer one only answers. -/
theorem loadProgramCopiesTheImage : Obligations.LoadProgramCopiesTheImage := by
  refine fun s image rest hwf hq => ⟨fun h => ?fits, fun h => ?long⟩
  case fits =>
    obtain ⟨m, hm, hin, hout⟩ := Memory.exists_writeBytes (a := Config.progBase) (bytes := image) hwf
      (Nat.add_le_add_left h 0x200)
    have hstep : step s = .next ({ s with requests := rest, mem := m }.respond (.load .ok)) := by
      rw [step_of_requests hq, perform, loadProgram_of_fits h]
      simp only [hm, Option.getD_some]
    have hframe := ((s.withRequests_frame rest).comp (State.withMem_frame _ m) (wider := [.memory, .host]) (by decide)
      (by decide)).comp (State.respond_frame _ (.load .ok)) (List.Subset.refl _) (by decide)
    exact ⟨_, hstep, rfl, rfl, rfl, hin, hout, hframe⟩
  case long =>
    have hstep : step s = .next ({ s with requests := rest }.respond (.load .loadError)) := by
      rw [step_of_requests hq, perform, loadProgram_of_long h]
    exact ⟨_, hstep, rfl, rfl, rfl,
      (s.withRequests_frame rest).comp (State.respond_frame _ _) (List.Subset.refl _) (List.Subset.refl _)⟩

/-! ## Reset (R54, R360, R361) -/

theorem Memory.resetByte_glyph (font : Config.FontTable) (k : Fin 80) : resetByte font (0x050 + k.val) = font[k] := by
  have hk : Config.fontBase ≤ 0x050 + k.val ∧ 0x050 + k.val < Config.fontBase + Config.fontLen :=
    ⟨Nat.le_add_right _ _, Nat.add_lt_add_left k.isLt _⟩
  rw [resetByte, dif_pos hk]
  simp

theorem Memory.resetByte_outside (font : Config.FontTable) {a : Nat} (h : a < 0x050 ∨ 0x0A0 ≤ a) :
    resetByte font a = 0 := by
  have ha : ¬(Config.fontBase ≤ a ∧ a < Config.fontBase + Config.fontLen) := by
    show ¬(0x050 ≤ a ∧ a < 0x050 + 80)
    omega
  exact dif_neg ha

/-- Settles O52: memory is the font's bytes and zeros, and every other field is written out in the reset state. -/
theorem resetValues : Obligations.ResetValues := by
  refine ⟨Memory.resetWith_font, fun font => ?_⟩
  obtain ⟨hwf, hread⟩ := Memory.ofFont_spec font
  refine ⟨_, rfl, fun q => ?regs, rfl, rfl, rfl, fun j => ?stack, rfl, rfl, rfl, Framebuffer.pixel_clear, rfl, rfl, hwf,
    fun k => ?glyphs, fun a ha => ?zeros⟩
  case regs => exact Vector.getElem_replicate q.isLt
  case stack => exact Vector.getElem_replicate j.isLt
  case glyphs => exact (hread _ (by omega)).trans (congrArg some (Memory.resetByte_glyph font k))
  case zeros =>
    exact (hread a (by omega)).trans (congrArg some (Memory.resetByte_outside font (ha.imp_right And.left)))

/-- Settles O53: the state after the transaction is the reset state but for the count of draws, the queue and the
answer. -/
theorem resetTransactionRestoresEverything : Obligations.ResetTransactionRestoresEverything := by
  intro s rest hq
  have hstep : step s = .next ({ State.reset with rng := s.rng, requests := rest }.respond .done) := by
    rw [step_of_requests hq, perform, doReset, Memory.resetAll_font]
  have hframe := ((State.withRng_frame .reset s.rng).comp (State.withRequests_frame _ rest) (wider := [.random, .host])
    (by decide) (by decide)).comp (State.respond_frame _ .done) (List.Subset.refl _) (by decide)
  exact ⟨_, hstep, hframe, rfl, rfl, rfl, rfl⟩

end Sys2Proof.Machine
end

section
/-! SUPPORT. Proofs of what every step keeps: the invariant, and the agreement of two states up to stale stack entries
(10_state.md sections 3, 5, 6 and 8). -/

namespace Sys2Proof.Machine

/-! ## The invariant (R39, R44) -/

/-- Settles O55: memory lists nothing, pc is 0x200, nothing is pending and the record is clear. -/
theorem resetMeetsTheInvariant : Obligations.ResetMeetsTheInvariant where
  memory := Memory.wf_reset
  pc := by decide
  returns _ hj := absurd hj (Nat.not_lt_zero _)
  record _ := rfl

theorem Inv.respond {s : State} (hi : Inv s) (r : Response) : Inv (s.respond r) := hi.of_same ⟨rfl, rfl, rfl, rfl, rfl⟩

/-- The Cycle of a running core keeps the invariant: what it executes was fetched from pc <= 0xFFE, so pc is then
between 2 and 0x1000. -/
theorem runCycle_keeps_inv {s t : State} (hi : Inv s) (h : runCycle s = .next t) : Inv t := by
  have hadvance {op : Word} (hf : s.fetch = some op) : 2 ≤ s.advance.pc.toNat ∧ s.advance.pc.toNat ≤ 0x1000 := by
    have := State.pc_le_of_fetch hf
    rw [State.advance_pc]
    bv_omega
  have hinv {op : Word} (hf : s.fetch = some op) : Inv s.advance := hi.setPc ((hadvance hf).2.trans (by decide))
  obtain ⟨-, hnone⟩ | ⟨op, hf, hunknown⟩ | ⟨op, i, hf, -, hexec⟩ := runCycle_cases s
  · rw [hnone] at h
    cases h
    exact hi.takeFault FaultKind.noConfusion _ _
  · rw [hunknown] at h
    cases h
    exact (hinv hf).takeFault FaultKind.noConfusion _ _
  · rw [hexec] at h
    obtain ⟨h2, hle⟩ := hadvance hf
    exact exec_keeps_inv h (hinv hf) h2 hle

theorem cycle_keeps_inv {s t : State} (hi : Inv s) (h : cycle s = .next t) : Inv t := by
  by_cases hrun : s.fault.kind = .none
  · rw [cycle_of_running hrun] at h
    cases hu : runCycle s with
    | next u =>
      rw [hu] at h
      cases h
      exact (runCycle_keeps_inv hi hu).respond _
    | fault f => cases f
    | refused r =>
      rw [hu] at h
      cases h
  · rw [cycle_of_halted hrun] at h
    cases h
    exact hi.respond _

theorem loadProgram_keeps_inv {s : State} (hi : Inv s) (image : List Byte) : Inv (loadProgram image s) := by
  unfold loadProgram
  split
  · have hwf : ((s.mem.writeBytes Config.progBase image).getD s.mem).wf = true := by
      cases hm : s.mem.writeBytes Config.progBase image with
      | none => exact hi.memory
      | some m => exact Memory.wf_writeBytes hi.memory hm
    exact ⟨hwf, hi.pc, hi.returns, hi.record⟩
  · exact hi.respond _

theorem perform_keeps_inv {tr : Transaction} {s t : State} (hi : Inv s) (h : perform tr s = .next t) : Inv t := by
  cases tr with
  | reset =>
    rw [perform, doReset, Memory.resetAll_font] at h
    cases h
    exact resetMeetsTheInvariant.of_same ⟨rfl, rfl, rfl, rfl, rfl⟩
  | cycle => exact cycle_keeps_inv hi h
  | loadProgram image =>
    cases h
    exact loadProgram_keeps_inv hi image
  | tick | keyWrite | keyRead | fbRead | statusRead | unused =>
    cases h
    exact hi.of_same ⟨rfl, rfl, rfl, rfl, rfl⟩

/-- Settles O56: taking the transaction off the queue touches nothing the invariant reads, and performing it keeps the
invariant. -/
theorem stepKeepsTheInvariant : Obligations.StepKeepsTheInvariant := by
  intro s t hi h
  have hdequeued : Inv s.dequeued := hi.of_same ⟨rfl, rfl, rfl, rfl, rfl⟩
  rw [step_eq_perform] at h
  exact perform_keeps_inv hdequeued h

/-! ## Stale stack entries (R51, D31) -/

/-- The stack k holds what the state's own stack holds in the entries in use (R47, R51). -/
def State.AgreesInUse (s : State) (k : Vector Word 16) : Prop := ∀ j : Fin 16, j.val < s.sp.val → k[j] = s.stack[j]

theorem SameButStale.refl (s : State) : SameButStale s s := ⟨fun _ _ => rfl, rfl⟩

/-- A state with another stack that agrees on the entries in use. -/
theorem SameButStale.of_agree {s : State} {k : Vector Word 16} (h : s.AgreesInUse k) :
    SameButStale s { s with stack := k } := ⟨h, rfl⟩

/-- States that agree up to stale entries differ in the stack alone. -/
theorem SameButStale.exists_stack {s t : State} (h : SameButStale s t) :
    ∃ k : Vector Word 16, t = { s with stack := k } ∧ s.AgreesInUse k := by
  obtain ⟨hagree, hrest⟩ := h
  exact ⟨t.stack, by rw [← hrest], hagree⟩

/-- Every instruction keeps the agreement: CALL writes the same word at sp, RET reads an entry in use, and no other
reads or writes the stack. -/
theorem exec_sameButStale {i : Instr} {s u : State} {k : Vector Word 16}
    (hk : s.AgreesInUse k) (h : exec i s = .next u) :
    ∃ u', exec i { s with stack := k } = .next u' ∧ SameButStale u u' := by
  obtain ⟨nnn, rfl⟩ | rfl | ⟨-, -, hstack⟩ := call_ret_or_other i
  · obtain hlt | hge := Nat.lt_or_ge s.sp.val 16
    · rw [exec_call_of_lt nnn s hlt] at h
      cases h
      refine ⟨_, exec_call_of_lt nnn { s with stack := k } hlt, .of_agree fun j hj => ?_⟩
      show (k.set s.sp.val s.pc hlt)[j.val] = (s.stack.set s.sp.val s.pc hlt)[j.val]
      rw [Vector.getElem_set, Vector.getElem_set]
      by_cases hnew : s.sp.val = j.val
      · rw [if_pos hnew, if_pos hnew]
      · rw [if_neg hnew, if_neg hnew]
        exact hk j (lt_of_le_of_ne (Nat.le_of_lt_succ hj) (Ne.symm hnew))
    · have hfull : s.sp.val = 16 := by omega
      rw [exec_call_of_full nnn s hfull] at h
      cases h
      exact ⟨_, exec_call_of_full nnn { s with stack := k } hfull, .of_agree hk⟩
  · obtain h0 | hpos := Nat.eq_zero_or_pos s.sp.val
    · rw [exec_ret_of_empty s h0] at h
      cases h
      exact ⟨_, exec_ret_of_empty { s with stack := k } h0, .of_agree hk⟩
    · have hlt : s.sp.val - 1 < 16 := by omega
      have htop : k[s.sp.val - 1] = s.stack[s.sp.val - 1] := hk ⟨s.sp.val - 1, hlt⟩ (Nat.sub_lt hpos Nat.one_pos)
      have hret := exec_ret_of_pos { s with stack := k } hpos hlt (by show s.sp.val - 1 < 17; omega)
      rw [exec_ret_of_pos s hpos hlt (by omega)] at h
      cases h
      simp only [htop] at hret
      exact ⟨_, hret, .of_agree fun j hj => hk j (Nat.lt_of_lt_of_le hj (Nat.sub_le _ 1))⟩
  · obtain ⟨hst, hsp⟩ : u.stack = s.stack ∧ u.sp = s.sp := (instructionsWriteOnlyTheirOwnState i s u h).2 .stack hstack
    have hd := exec_disguise (k := fun _ => k) (g := id) (r := id) h (fun hp => absurd hp hstack) (fun _ => rfl)
      fun _ => rfl
    exact ⟨_, hd, .of_agree fun j hj => by rw [hst]; exact hk j (hsp ▸ hj)⟩

theorem runCycle_sameButStale {s u : State} {k : Vector Word 16} (hk : s.AgreesInUse k)
    (h : runCycle s = .next u) :
    ∃ u', runCycle { s with stack := k } = .next u' ∧ SameButStale u u' := by
  cases hf : s.fetch with
  | none =>
    rw [runCycle_of_no_fetch hf] at h
    cases h
    exact ⟨_, runCycle_of_no_fetch (s := { s with stack := k }) hf, .of_agree hk⟩
  | some op =>
    cases hd : decodeWord op with
    | error e =>
      rw [runCycle_of_unknown hf hd] at h
      cases h
      exact ⟨_, runCycle_of_unknown (s := { s with stack := k }) hf hd, .of_agree hk⟩
    | ok i =>
      rw [runCycle_of_decode hf hd] at h
      rw [runCycle_of_decode (s := { s with stack := k }) hf hd]
      exact exec_sameButStale (s := s.advance) hk h

/-- The result of a Cycle is read off the record, on which the states agree. -/
theorem finishCycle_sameButStale {s u u' : State} (hs : finishCycle (.next s) = .next u) (h : SameButStale s u') :
    ∃ t, finishCycle (.next u') = .next t ∧ SameButStale u t := by
  obtain ⟨k, rfl, hk⟩ := h.exists_stack
  cases hs
  exact ⟨_, rfl, .of_agree hk⟩

theorem cycle_sameButStale {s u : State} {k : Vector Word 16} (hk : s.AgreesInUse k)
    (h : cycle s = .next u) :
    ∃ u', cycle { s with stack := k } = .next u' ∧ SameButStale u u' := by
  by_cases hrun : s.fault.kind = .none
  · rw [cycle_of_running hrun] at h
    rw [cycle_of_running (s := { s with stack := k }) hrun]
    cases hr : runCycle s with
    | next v =>
      rw [hr] at h
      obtain ⟨v', hv', hsame⟩ := runCycle_sameButStale hk hr
      rw [hv']
      exact finishCycle_sameButStale h hsame
    | fault f => cases f
    | refused r =>
      rw [hr] at h
      cases h
  · rw [cycle_of_halted hrun] at h
    cases h
    exact ⟨_, cycle_of_halted (s := { s with stack := k }) hrun, .of_agree hk⟩

theorem perform_sameButStale {tr : Transaction} {s u : State} {k : Vector Word 16}
    (hk : s.AgreesInUse k) (h : perform tr s = .next u) :
    ∃ u', perform tr { s with stack := k } = .next u' ∧ SameButStale u u' := by
  cases tr with
  | reset =>
    cases h
    exact ⟨_, rfl, .refl _⟩
  | cycle => exact cycle_sameButStale hk h
  | loadProgram image =>
    cases h
    refine ⟨_, rfl, ?_⟩
    obtain hlong | hfits := Nat.lt_or_ge 3584 image.length
    · rw [loadProgram_of_long hlong, loadProgram_of_long hlong]
      exact .of_agree hk
    · rw [loadProgram_of_fits hfits, loadProgram_of_fits hfits]
      exact .of_agree hk
  | tick | keyWrite | keyRead | fbRead | statusRead | unused =>
    cases h
    exact ⟨_, rfl, .of_agree hk⟩

/-- Settles O57: the two states queue the same transactions, and performing one keeps the agreement. -/
theorem staleStackEntriesAreUnobservable : Obligations.StaleStackEntriesAreUnobservable := by
  intro s t s' hsame h
  obtain ⟨k, rfl, hk⟩ := hsame.exists_stack
  rw [step_eq_perform] at h ⊢
  exact perform_sameButStale (s := s.dequeued) hk h

end Sys2Proof.Machine
end
